-- ==== Sys2Proof/Word.lean ====
section
/-! DEFINITION. The one word of the LS-8 core: every register, memory cell, immediate and opcode is one
unsigned byte (00_scope.md R6 and R10, 20_memory.md R55). -/

namespace Sys2Proof

/-- An 8-bit unsigned value, wrapping modulo 256 (R20). -/
abbrev Byte := BitVec 8

end Sys2Proof
end

