-- ==== Sys2Proof/Config.lean ====
section
/-! DEFINITION. The parameters of the core (00_scope.md R6). The spec leaves no value open, so there is no free
value here; the opcode map and the instruction widths are in Decode.lean. -/

namespace Sys2Proof

/-- A register index, 0..7: `R0` to `R7` (R20). -/
abbrev Reg := Fin 8

namespace Config

/-- `SP_REG`: register 7 is the stack pointer (R22). -/
abbrev spReg : Reg := 7

/-- `SP_INIT`: the reset value of the stack pointer, and the stack pointer of the empty stack (R22, R112). -/
abbrev spInit : Byte := 0xF4#8

/-- `MEM_SIZE`: 256 cells, addresses 0..255 (R39, R50). -/
abbrev memSize : Nat := 256

/-- `LOAD_BASE`: the loader writes the image from this address on (R203). -/
abbrev loadBase : Nat := 0

/-- What a memory cell holds that neither the loader nor an instruction has written (R40, the spec's decision D10,
log entry 8). -/
abbrev memFill : Byte := 0x00#8

/-- `MAX_ILEN`: the longest instruction, in bytes. -/
abbrev maxInstrLen : Nat := 3

end Config

end Sys2Proof
end

