-- ==== Sys2Proof/Machine/State.lean ====
section
/-! DEFINITION. The state of the core (10_state.md), as plain data, and its value at reset. -/

namespace Sys2Proof.Machine

/-- The four fault kinds of the core, all fatal and precise (60_exceptions.md R170, R177). Taking one is a NEXT state
whose status records it (R176). -/
inductive FaultKind where
  /-- The opcode is not in the opcode map (R171). -/
  | invalidInstruction
  /-- A register byte above 7, or an address outside 0..255 (R172). -/
  | operandOutOfRange
  /-- A push with the stack pointer at 0 (R173). -/
  | stackOverflow
  /-- A pop of the empty stack, or one that would take the stack pointer out of memory (R174). -/
  | stackUnderflow
deriving DecidableEq, Repr

/-- The record a fault leaves (R34): the kind, the `pc` at the start of the faulting step, and the opcode byte of
that step (`none` when `pc` is 256). -/
structure FaultRecord where
  kind : FaultKind
  pc : Nat
  opcode : Option Byte
deriving DecidableEq, Repr

/-- The run status (R33). -/
inductive Status where
  | running
  | halted
  | faulted (record : FaultRecord)
deriving DecidableEq, Repr

/-- The flags register: Equal, Greater-than, Less-than (R29). -/
structure Flags where
  E : Bool
  G : Bool
  L : Bool
deriving DecidableEq, Repr

/-- The memory as the cells that do not hold `Config.memFill`, by rising address. -/
abbrev Memory := List Host.Cell

/-- The canonical form: addresses strictly rising, every address one of the 256, no cell equal to what an unlisted
address reads as. Equal memories are then equal lists. -/
abbrev Memory.wf (m : Memory) : Prop :=
  List.Pairwise (fun c d : Host.Cell => c.1 < d.1) m ∧
    ∀ c ∈ m, c.1 < Config.memSize ∧ c.2 ≠ Config.memFill

/-- The complete state of the core (R42): register file `x`, program counter, flags `FL`, memory `M`, run status
with its fault record, and the console output stream, oldest value first (R41). -/
structure State where
  x : Vector Byte 8
  pc : Nat
  FL : Flags
  M : Memory
  status : Status
  console : List Byte
deriving DecidableEq, Repr

/-- Why the model itself stops. It never does: every fault the spec names is a next state (R176), and a core that is
not running stays as it is (R180, log entries 28 and 34). No constructor, so nothing is safe or unsafe. -/
inductive Fault where
deriving DecidableEq, Repr

/-- Why an instruction has no meaning. -/
inductive Refusal where
  /-- Raised by an arm of `exec` whose instruction is not modelled yet; no arm raises it. Safe. -/
  | notModelled (mnemonic : String)
deriving DecidableEq, Repr

/-- The machine right after reset (70_reset_and_hazards.md R200): `SP` = 0xF4, every other register 0, `pc` 0, flags
clear, every memory byte 0x00, status `Halted`, console empty. The values other than `SP`'s are the spec's decisions
D6, D7, D8, D10, D11 (log entries 5 to 9). -/
def State.reset : State where
  x := #v[0x00#8, 0x00#8, 0x00#8, 0x00#8, 0x00#8, 0x00#8, 0x00#8, Config.spInit]
  pc := 0
  FL := { E := false, G := false, L := false }
  M := []
  status := .halted
  console := []

end Sys2Proof.Machine
end

