-- ==== Sys2Proof/Machine/Flags.lean ====
section
/-! DEFINITION. The flag computation of `CMP`, the only one of the core, and the byte view of `FL`. -/

namespace Sys2Proof.Machine

/-- `CMP` sets exactly one flag by the unsigned order of the two values and clears the others (43_alu.md R144,
D21, log entry 19). -/
def compareFlags (A B : Byte) : Flags :=
  if A.toNat = B.toNat then { E := true, G := false, L := false }
  else if A.toNat > B.toNat then { E := false, G := true, L := false }
  else { E := false, G := false, L := true }

/-- `FL` as a byte, for a debug view only: bit 0 = E, bit 1 = G, bit 2 = L, bits 7:3 = 0 (10_state.md R30, D7). -/
def Flags.toByte (f : Flags) : Byte :=
  0#5 ++ BitVec.ofBool f.L ++ BitVec.ofBool f.G ++ BitVec.ofBool f.E

end Sys2Proof.Machine
end

