-- ==== Sys2Proof/Syntax.lean ====
section
/-! DEFINITION. The nineteen instructions of the core (00_scope.md R4), one constructor for each row of
spec/opcode_table.json. -/

namespace Sys2Proof

/-- A register operand byte, as it stands in the instruction: it names register `b` when `b <= 7`, and an
instruction that holds another value raises `OperandOutOfRange` (30_encoding.md R74). -/
abbrev RegByte := Byte

/-- The instructions. `a` is the first operand byte (`b1`), `b` and `imm` the second (`b2`) (R11, R89). -/
inductive Instr where
  /-- `LDI Ra, imm` (R100). -/
  | ldi (a : RegByte) (imm : Byte)
  /-- `PRN Ra` (R101). -/
  | prn (a : RegByte)
  /-- `HLT` (R102). -/
  | hlt
  /-- `PUSH Ra` (R113). -/
  | push (a : RegByte)
  /-- `POP Ra` (R114). -/
  | pop (a : RegByte)
  /-- `CALL Ra` (R121). -/
  | call (a : RegByte)
  /-- `RET` (R122). -/
  | ret
  /-- `JMP Ra` (R123). -/
  | jmp (a : RegByte)
  /-- `JEQ Ra` (R124). -/
  | jeq (a : RegByte)
  /-- `JNE Ra` (R125). -/
  | jne (a : RegByte)
  /-- `ADD Ra, Rb` (R141). -/
  | add (a b : RegByte)
  /-- `SUB Ra, Rb` (R142). -/
  | sub (a b : RegByte)
  /-- `MUL Ra, Rb` (R143). -/
  | mul (a b : RegByte)
  /-- `CMP Ra, Rb` (R144). -/
  | cmp (a b : RegByte)
  /-- `AND Ra, Rb` (R145). -/
  | and (a b : RegByte)
  /-- `OR Ra, Rb` (R146). -/
  | or (a b : RegByte)
  /-- `XOR Ra, Rb` (R147). -/
  | xor (a b : RegByte)
  /-- `NOT Ra, Rb`: `b` is encoded and checked, its register's value is not used (R76, R148). -/
  | not (a b : RegByte)
  /-- `SHL Ra, Rb` (R149). -/
  | shl (a b : RegByte)
deriving DecidableEq, Repr

/-- The instruction classes (R84). -/
inductive InstrClass where
  /-- Ends with `pc <- pc + width`. -/
  | sequential
  /-- Ends with `pc <- target`, or falls through when a conditional jump is not taken. -/
  | controlTransfer
  /-- `HLT`: leaves `pc`. -/
  | terminal
deriving DecidableEq, Repr

/-- The class column of the opcode map (R80). -/
def Instr.kind : Instr → InstrClass
  | .ldi _ _ => .sequential
  | .prn _ => .sequential
  | .hlt => .terminal
  | .push _ => .sequential
  | .pop _ => .sequential
  | .call _ => .controlTransfer
  | .ret => .controlTransfer
  | .jmp _ => .controlTransfer
  | .jeq _ => .controlTransfer
  | .jne _ => .controlTransfer
  | .add _ _ => .sequential
  | .sub _ _ => .sequential
  | .mul _ _ => .sequential
  | .cmp _ _ => .sequential
  | .and _ _ => .sequential
  | .or _ _ => .sequential
  | .xor _ _ => .sequential
  | .not _ _ => .sequential
  | .shl _ _ => .sequential

end Sys2Proof
end

