-- ==== Sys2Proof/Machine/Operands.lean ====
section
/-! DEFINITION. The operand forms of the core: a register byte and an immediate byte (30_encoding.md R74, R75). -/

namespace Sys2Proof.Machine

/-- A register operand byte names register `b` when `b <= 7`; any other value raises `OperandOutOfRange`, the high
bits being neither masked nor ignored (R74, D4, log entry 3). -/
def regOperand (b : RegByte) : Except FaultKind Reg :=
  if h : b.toNat < 8 then .ok ⟨b.toNat, h⟩ else .error .operandOutOfRange

/-- The immediate byte of `LDI`, taken as it stands (R75). -/
def immOperand (b : Byte) : Byte := b

end Sys2Proof.Machine
end

