-- ==== Sys2Proof/Machine/Ops.lean ====
section
/-! DEFINITION. The operations every meaning is written in: the pseudocode primitives of 00_scope.md R11, the stack
mechanics of 41_stack.md, and taking a fault. A meaning's body answers the new state or the fault kind it raises, so
the writes made before a `raise` are never in the state that results (R177). -/

namespace Sys2Proof.Machine

/-! ### Registers, program counter, console, status -/

/-- `x[r]`. -/
def State.reg (s : State) (r : Reg) : Byte := s.x.get r

/-- `x[r] <- v`. No register is hard-wired or read-only (R21). -/
def State.setReg (s : State) (r : Reg) (v : Byte) : State :=
  { s with x := s.x.set r.val v r.isLt }

/-- `SP`, another name for `x[7]` (R22). -/
def State.sp (s : State) : Byte := s.reg Config.spReg

/-- `SP <- v`. -/
def State.setSp (s : State) (v : Byte) : State := s.setReg Config.spReg v

/-- `pc <- pc + width`, without wrap-around (R26). -/
def State.advance (s : State) (width : Nat) : State := { s with pc := s.pc + width }

/-- `pc <- target`, a byte (R120). -/
def State.jump (s : State) (target : Byte) : State := { s with pc := target.toNat }

/-- `FL <- {E, G, L}`. -/
def State.setFlags (s : State) (f : Flags) : State := { s with FL := f }

/-- `ConsoleOut(v)`: append to the console stream (R41, R191). -/
def State.consoleOut (s : State) (v : Byte) : State := { s with console := s.console ++ [v] }

/-- `halt`: the status becomes `Halted`, `pc` stays (R102, D16, log entry 14). -/
def State.halt (s : State) : State := { s with status := .halted }

/-! ### Memory -/

/-- The byte at an address; a cell that is not listed holds `Config.memFill` (R40). -/
def Memory.read : Memory → Nat → Byte
  | [], _ => Config.memFill
  | (b, v) :: m, a => if a = b then v else Memory.read m a

/-- The memory without a cell for the address, which then reads as `Config.memFill`. -/
def Memory.erase (m : Memory) (a : Nat) : Memory := m.filter fun c => c.1 != a

/-- The memory with one more cell, before the first cell of a higher address. -/
def Memory.insert : Memory → Nat → Byte → Memory
  | [], a, v => [(a, v)]
  | (b, w) :: m, a, v => if a < b then (a, v) :: (b, w) :: m else (b, w) :: Memory.insert m a v

/-- The memory with `v` at the address, in canonical form. -/
def Memory.write (m : Memory) (a : Nat) (v : Byte) : Memory :=
  if v = Config.memFill then m.erase a else (m.erase a).insert a v

/-- The bytes written one after another from an address on. -/
def Memory.writeBytes : Memory → Nat → List Byte → Memory
  | m, _, [] => m
  | m, a, v :: vs => Memory.writeBytes (m.write a v) (a + 1) vs

/-- `MemRead(a, 1)`: an address outside 0..255 raises `OperandOutOfRange` (R54). -/
def memRead (s : State) (a : Nat) : Except FaultKind Byte :=
  if a < Config.memSize then .ok (s.M.read a) else .error .operandOutOfRange

/-- `MemWrite(a, 1, v)`: an address outside 0..255 raises `OperandOutOfRange` (R54). -/
def memWrite (s : State) (a : Nat) (v : Byte) : Except FaultKind State :=
  if a < Config.memSize then .ok { s with M := s.M.write a v } else .error .operandOutOfRange

/-! ### Taking a fault -/

/-- The opcode a fault record holds: the byte at `pc`, or `none` when `pc` is past memory (R34, R176). -/
def State.opcode? (s : State) : Option Byte :=
  if s.pc < Config.memSize then some (s.M.read s.pc) else none

/-- Fault entry (R176): `status <- Faulted{kind, pc, opcode}` and nothing else. There is no handler, vector, saved
register or mode, and no return from a fault (R179). -/
def State.raise (s : State) (k : FaultKind) : State :=
  { s with status := .faulted { kind := k, pc := s.pc, opcode := s.opcode? } }

/-- End an instruction that began in state `s`: its new state, or, where its body raised a fault, `s` itself with the
fault taken, every write of the body discarded (R177). -/
def commit (s : State) : Except FaultKind State → Host.Outcome State Fault Refusal
  | .ok t => .next t
  | .error k => .next (s.raise k)

/-! ### The stack -/

/-- Push mechanics (R111): the value is evaluated after `SP` is decremented. -/
def pushByte (value : State → Byte) (s : State) : Except FaultKind State :=
  if s.sp = 0#8 then .error .stackOverflow
  else
    let t := s.setSp (s.sp - 1#8)
    memWrite t t.sp.toNat (value t)

/-- Pop mechanics (R112): `dest` writes the popped byte to its destination, and `SP` is read again after that. -/
def popByte (dest : Byte → State → State) (s : State) : Except FaultKind State :=
  if s.sp = Config.spInit ∨ s.sp = 0xFF#8 then .error .stackUnderflow
  else do
    let v ← memRead s s.sp.toNat
    let t := dest v s
    if t.sp.toNat + 1 > 255 then .error .stackUnderflow
    else .ok (t.setSp (t.sp + 1#8))

end Sys2Proof.Machine
end

