-- ==== Sys2Proof/Machine/Alu.lean ====
section
/-! DEFINITION. The ALU instructions (43_alu.md). Each result is the exact integer result kept modulo 256 (R140,
R151). -/

namespace Sys2Proof.Machine

/-- `(A + B) mod 256` (R141). -/
def aluAdd (A B : Byte) : Byte := BitVec.ofNat 8 (A.toNat + B.toNat)

/-- `(A - B) mod 256`, destination minus source (R142, D21, log entry 19). -/
def aluSub (A B : Byte) : Byte := BitVec.ofInt 8 ((A.toNat : Int) - (B.toNat : Int))

/-- `(A * B) mod 256`, the low byte of the product (R143). -/
def aluMul (A B : Byte) : Byte := BitVec.ofNat 8 (A.toNat * B.toNat)

/-- `A & B` (R145). -/
def aluAnd (A B : Byte) : Byte := A &&& B

/-- `A | B` (R146). -/
def aluOr (A B : Byte) : Byte := A ||| B

/-- `A ^ B` (R147). -/
def aluXor (A B : Byte) : Byte := A ^^^ B

/-- `(~A) & 0xFF`; the second operand is ignored (R148, D22, log entry 20). -/
def aluNot (A _B : Byte) : Byte := ~~~A

/-- `(A << S) mod 256`, `S` the whole unsigned byte, so 0 when `S >= 8` (R149, D23, log entry 21). -/
def aluShl (A S : Byte) : Byte := BitVec.ofNat 8 (A.toNat <<< S.toNat)

/-- The ALU contract (R140): decode both register bytes, read both values, write the result to the first register,
`pc <- pc + 3`. -/
def aluOp (f : Byte → Byte → Byte) (b1 b2 : RegByte) (s : State) : Except FaultKind State := do
  let a ← regOperand b1
  let b ← regOperand b2
  return (s.setReg a (f (s.reg a) (s.reg b))).advance 3

/-- `ADD Ra, Rb` (R141). -/
def execAdd (b1 b2 : RegByte) (s : State) : Host.Outcome State Fault Refusal :=
  commit s (aluOp aluAdd b1 b2 s)

/-- `SUB Ra, Rb` (R142). -/
def execSub (b1 b2 : RegByte) (s : State) : Host.Outcome State Fault Refusal :=
  commit s (aluOp aluSub b1 b2 s)

/-- `MUL Ra, Rb` (R143). -/
def execMul (b1 b2 : RegByte) (s : State) : Host.Outcome State Fault Refusal :=
  commit s (aluOp aluMul b1 b2 s)

/-- `CMP Ra, Rb` (R144): writes the flags and no register. -/
def execCmp (b1 b2 : RegByte) (s : State) : Host.Outcome State Fault Refusal :=
  commit s do
    let a ← regOperand b1
    let b ← regOperand b2
    return (s.setFlags (compareFlags (s.reg a) (s.reg b))).advance 3

/-- `AND Ra, Rb` (R145). -/
def execAnd (b1 b2 : RegByte) (s : State) : Host.Outcome State Fault Refusal :=
  commit s (aluOp aluAnd b1 b2 s)

/-- `OR Ra, Rb` (R146). -/
def execOr (b1 b2 : RegByte) (s : State) : Host.Outcome State Fault Refusal :=
  commit s (aluOp aluOr b1 b2 s)

/-- `XOR Ra, Rb` (R147). -/
def execXor (b1 b2 : RegByte) (s : State) : Host.Outcome State Fault Refusal :=
  commit s (aluOp aluXor b1 b2 s)

/-- `NOT Ra, Rb` (R148). -/
def execNot (b1 b2 : RegByte) (s : State) : Host.Outcome State Fault Refusal :=
  commit s (aluOp aluNot b1 b2 s)

/-- `SHL Ra, Rb` (R149). -/
def execShl (b1 b2 : RegByte) (s : State) : Host.Outcome State Fault Refusal :=
  commit s (aluOp aluShl b1 b2 s)

end Sys2Proof.Machine
end

