-- ==== Sys2Proof/Machine/ControlTransfer.lean ====
section
/-! DEFINITION. Control transfer: `CALL`, `RET`, `JMP`, `JEQ`, `JNE` (42_control_transfer.md). -/

namespace Sys2Proof.Machine

/-- `CALL Ra` (R121). A return address of 256 is not a byte (D20, log entry 18); the target is read after the push,
so `CALL R7` jumps to `SP - 1` (D19, log entry 17). -/
def execCall (b1 : RegByte) (s : State) : Host.Outcome State Fault Refusal :=
  commit s do
    let a ← regOperand b1
    let ret := s.pc + 2
    if ret > 255 then .error .operandOutOfRange
    else do
      let t ← pushByte (fun _ => BitVec.ofNat 8 ret) s
      return t.jump (t.reg a)

/-- `RET` (R122). -/
def execRet (s : State) : Host.Outcome State Fault Refusal :=
  commit s (popByte (fun v u => u.jump v) s)

/-- `JMP Ra` (R123). -/
def execJmp (b1 : RegByte) (s : State) : Host.Outcome State Fault Refusal :=
  commit s do
    let a ← regOperand b1
    return s.jump (s.reg a)

/-- Jump to `x[a]` when the condition holds, else fall through: the shape of `JEQ` and `JNE` (R84). -/
def jumpIf (taken : Bool) (b1 : RegByte) (s : State) : Except FaultKind State := do
  let a ← regOperand b1
  return if taken then s.jump (s.reg a) else s.advance 2

/-- `JEQ Ra` (R124). -/
def execJeq (b1 : RegByte) (s : State) : Host.Outcome State Fault Refusal :=
  commit s (jumpIf s.FL.E b1 s)

/-- `JNE Ra` (R125). -/
def execJne (b1 : RegByte) (s : State) : Host.Outcome State Fault Refusal :=
  commit s (jumpIf (!s.FL.E) b1 s)

end Sys2Proof.Machine
end

