-- ==== Sys2Proof/Machine/DataMovement.lean ====
section
/-! DEFINITION. Data movement: `LDI`, `PRN`, `HLT` (40_data_movement.md). -/

namespace Sys2Proof.Machine

/-- `LDI Ra, imm` (R100). -/
def execLdi (b1 : RegByte) (b2 : Byte) (s : State) : Host.Outcome State Fault Refusal :=
  commit s do
    let a ← regOperand b1
    return (s.setReg a (immOperand b2)).advance 3

/-- `PRN Ra` (R101). -/
def execPrn (b1 : RegByte) (s : State) : Host.Outcome State Fault Refusal :=
  commit s do
    let a ← regOperand b1
    return (s.consoleOut (s.reg a)).advance 2

/-- `HLT` (R102). -/
def execHlt (s : State) : Host.Outcome State Fault Refusal :=
  commit s (.ok s.halt)

end Sys2Proof.Machine
end

