-- ==== Sys2Proof/Machine/Stack.lean ====
section
/-! DEFINITION. Stack instructions: `PUSH`, `POP` (41_stack.md). -/

namespace Sys2Proof.Machine

/-- `PUSH Ra` (R113). The register is read after the decrement, so `PUSH R7` stores `SP - 1` (D19, log entry 17). -/
def execPush (b1 : RegByte) (s : State) : Host.Outcome State Fault Refusal :=
  commit s do
    let a ← regOperand b1
    let t ← pushByte (fun u => u.reg a) s
    return t.advance 2

/-- `POP Ra` (R114). `SP` is incremented after the register is written, so `POP R7` leaves the popped byte plus one
(D19, log entry 17). -/
def execPop (b1 : RegByte) (s : State) : Host.Outcome State Fault Refusal :=
  commit s do
    let a ← regOperand b1
    let t ← popByte (fun v u => u.setReg a v) s
    return t.advance 2

end Sys2Proof.Machine
end

