-- ==== Sys2Proof/WellFormed.lean ====
section
/-! DEFINITION. Which terms of `Instr` are instructions: every register operand byte names a register
(30_encoding.md R74, R76, R88). The immediate of `LDI` has no illegal value (R75). -/

namespace Sys2Proof

/-- The byte names one of the eight registers: bits 7:3 are zero (R74). -/
def isRegByte (b : RegByte) : Bool := decide (b.toNat < 8)

/-- The checks of R76: `b1` for the formats `R`, `RI` and `RR`, `b2` for `RR`, `NOT` included. -/
def Instr.wellFormed : Instr → Bool
  | .ldi a _ => isRegByte a
  | .prn a => isRegByte a
  | .hlt => true
  | .push a => isRegByte a
  | .pop a => isRegByte a
  | .call a => isRegByte a
  | .ret => true
  | .jmp a => isRegByte a
  | .jeq a => isRegByte a
  | .jne a => isRegByte a
  | .add a b => isRegByte a && isRegByte b
  | .sub a b => isRegByte a && isRegByte b
  | .mul a b => isRegByte a && isRegByte b
  | .cmp a b => isRegByte a && isRegByte b
  | .and a b => isRegByte a && isRegByte b
  | .or a b => isRegByte a && isRegByte b
  | .xor a b => isRegByte a && isRegByte b
  | .not a b => isRegByte a && isRegByte b
  | .shl a b => isRegByte a && isRegByte b

/-- The instruction is well formed. -/
abbrev Instr.WellFormed (i : Instr) : Prop := i.wellFormed = true

end Sys2Proof
end

