-- ==== Sys2Proof/Decode.lean ====
section
/-! DEFINITION. The decoder and the encoder (30_encoding.md). The decoder is total on lists of bytes and rejects by
name; an instruction is selected by its whole opcode byte (R77), in the order of checks of R83 and R178. -/

namespace Sys2Proof

/-- Why bytes are no instruction. -/
inductive DecodeError where
  /-- There is no opcode byte to read: `pc` is 256 (R83). -/
  | noOpcode
  /-- The opcode is not in the opcode map (R86). -/
  | unknownOpcode (op : Byte)
  /-- The instruction's bytes go on past the last address (R83). -/
  | truncated (op : Byte)
  /-- A register operand byte is above 7 (R74). -/
  | badRegister (op : Byte) (operand : Byte)
deriving DecidableEq, Repr

/-- How the bytes after an opcode are read: the formats `N`, `R`, `RI`, `RR` of R71, each with the instruction it
makes of its operand bytes. -/
inductive Shape where
  | n (make : Instr)
  | r (make : RegByte → Instr)
  | ri (make : RegByte → Byte → Instr)
  | rr (make : RegByte → RegByte → Instr)

/-- The length in bytes of an instruction of this format (R71). -/
def Shape.width : Shape → Nat
  | .n _ => 1
  | .r _ => 2
  | .ri _ => 3
  | .rr _ => 3

/-- The opcode map (R80): the byte values are the spec's decision D2 (log entry 1); `NOT` is in the 3-byte format
although its bits 7:6 say one operand (R81, C5, log entry 2). -/
def opMap : List (Byte × Shape) :=
  [ (0x82#8, .ri .ldi),
    (0x47#8, .r .prn),
    (0x01#8, .n .hlt),
    (0x45#8, .r .push),
    (0x46#8, .r .pop),
    (0x50#8, .r .call),
    (0x11#8, .n .ret),
    (0x54#8, .r .jmp),
    (0x55#8, .r .jeq),
    (0x56#8, .r .jne),
    (0xA0#8, .rr .add),
    (0xA1#8, .rr .sub),
    (0xA2#8, .rr .mul),
    (0xA7#8, .rr .cmp),
    (0xA8#8, .rr .and),
    (0xAA#8, .rr .or),
    (0xAB#8, .rr .xor),
    (0x69#8, .rr .not),
    (0xAC#8, .rr .shl) ]

/-- The handler lookup of R83. -/
def lookupOp (op : Byte) : Option Shape := opMap.lookup op

/-- The operand bytes of an instruction, checked `b1` before `b2` (R83, R178). -/
def decodeOperands (op : Byte) : Shape → List Byte → Except DecodeError (Instr × List Byte)
  | .n make, rest => .ok (make, rest)
  | .r make, b1 :: rest =>
    if isRegByte b1 then .ok (make b1, rest) else .error (.badRegister op b1)
  | .ri make, b1 :: b2 :: rest =>
    if isRegByte b1 then .ok (make b1 b2, rest) else .error (.badRegister op b1)
  | .rr make, b1 :: b2 :: rest =>
    if isRegByte b1 then
      if isRegByte b2 then .ok (make b1 b2, rest) else .error (.badRegister op b2)
    else .error (.badRegister op b1)
  | _, _ => .error (.truncated op)

/-- Read one instruction from the front of a list of bytes; the answer holds the bytes after it. -/
def decode : List Byte → Except DecodeError (Instr × List Byte)
  | [] => .error .noOpcode
  | op :: rest =>
    match lookupOp op with
    | none => .error (.unknownOpcode op)
    | some shape => decodeOperands op shape rest

/-- The bytes of an instruction, lowest address first, from the encodings of R71 and R80. -/
def encode : Instr → List Byte
  | .ldi a imm => [0x82#8, a, imm]
  | .prn a => [0x47#8, a]
  | .hlt => [0x01#8]
  | .push a => [0x45#8, a]
  | .pop a => [0x46#8, a]
  | .call a => [0x50#8, a]
  | .ret => [0x11#8]
  | .jmp a => [0x54#8, a]
  | .jeq a => [0x55#8, a]
  | .jne a => [0x56#8, a]
  | .add a b => [0xA0#8, a, b]
  | .sub a b => [0xA1#8, a, b]
  | .mul a b => [0xA2#8, a, b]
  | .cmp a b => [0xA7#8, a, b]
  | .and a b => [0xA8#8, a, b]
  | .or a b => [0xAA#8, a, b]
  | .xor a b => [0xAB#8, a, b]
  | .not a b => [0x69#8, a, b]
  | .shl a b => [0xAC#8, a, b]

/-- The width column of the opcode map (R80), for an instruction. -/
def Instr.width (i : Instr) : Nat := (encode i).length

/-- The bytes of an opcode-table word of `nbits` bits, lowest address first. The table reads an instruction of `n`
bytes as one number with byte 0 (the opcode) the most significant (its `match`, `mask` and `fixed`; log entry 29).
Zero bytes follow up to the longest instruction. -/
def tableBytes (nbits w : Nat) : List Byte :=
  let n := nbits / 8
  let bytes := (List.range n).map fun k => BitVec.ofNat 8 (w >>> (8 * (n - 1 - k)))
  (bytes ++ List.replicate Config.maxInstrLen 0#8).take Config.maxInstrLen

/-- The instruction the decoder reads from an opcode-table word. -/
def decodeTableWord (nbits w : Nat) : Option Instr :=
  match decode (tableBytes nbits w) with
  | .ok (i, _) => some i
  | .error _ => none

end Sys2Proof
end

