-- ==== Sys2Proof/Machine/Fetch.lean ====
section
/-! DEFINITION. Fetching an instruction's bytes and naming the fault of bytes that are no instruction
(30_encoding.md R72, R83). -/

namespace Sys2Proof.Machine

/-- The bytes of memory from an address on, at most `n` of them and none past address 255. -/
def Memory.window (m : Memory) : Nat → Nat → List Byte
  | _, 0 => []
  | a, n + 1 => if a < Config.memSize then m.read a :: Memory.window m (a + 1) n else []

/-- The bytes the fetch unit reads: the opcode at `pc`, then as many operand bytes as the opcode's width asks for
(R72). Bytes beyond the width, and bytes past address 255, are not read; at `pc` 256 there is none. -/
def State.fetch (s : State) : List Byte :=
  match s.M.window s.pc 1 with
  | op :: _ =>
    match lookupOp op with
    | some shape => s.M.window s.pc shape.width
    | none => [op]
  | [] => []

/-- The fault each decoding error raises (R83, R171, R172). -/
def decodeFault : DecodeError → FaultKind
  | .noOpcode => .operandOutOfRange
  | .unknownOpcode _ => .invalidInstruction
  | .truncated _ => .operandOutOfRange
  | .badRegister _ _ => .operandOutOfRange

/-- Where a word for the fetch is placed: at `pc` when the longest instruction fits there, else at the load address,
to which `pc` then goes (log entry 30). -/
def State.placeFor (s : State) : Nat :=
  if s.pc + Config.maxInstrLen ≤ Config.memSize then s.pc else Config.loadBase

end Sys2Proof.Machine
end

