-- ==== Sys2Proof/Machine/Step.lean ====
section
/-! DEFINITION. One step of the core (30_encoding.md R82, R83). -/

namespace Sys2Proof.Machine

/-- While `Running`, a step fetches and decodes the instruction at `pc` and executes it; bytes that are no
instruction raise their fault, in the order of R178. A core that is `Halted` or `Faulted` takes no step: its state
stays as it is (R180, log entry 28). -/
def step (s : State) : Host.Outcome State Fault Refusal :=
  match s.status with
  | .running =>
    match decode s.fetch with
    | .ok (i, _) => exec i s
    | .error e => .next (s.raise (decodeFault e))
  | .halted => .next s
  | .faulted _ => .next s

/-- The state with an opcode-table word placed where the next step fetches, and the core started: what the host's
load and start do for it (R203, R204, log entry 30). -/
def State.withFetchWord (s : State) (nbits w : Nat) : State :=
  { s with
    M := s.M.writeBytes s.placeFor (tableBytes nbits w)
    pc := s.placeFor
    status := .running }

end Sys2Proof.Machine
end

