-- ==== Sys2Proof/Machine/HostInterface.lean ====
section
/-! DEFINITION. The block interface between the host and the core (60_exceptions.md R180, R187, R190, R191;
70_reset_and_hazards.md R200 to R204). None of it is an instruction; `none` means the operation does not apply and
changes nothing. -/

namespace Sys2Proof.Machine

/-- How far the host has gone since the last reset: the column "when" of R190. It is the host's, not the core's (R42
lists the core's state): a core that has halted by `HLT` and one that waits for its load can be in one state (log
entry 33). -/
inductive HostPhase where
  /-- After reset: the core waits for its image. -/
  | afterReset
  /-- After a load that went through: the core waits for its start. -/
  | loaded
  /-- After start: the core runs, or its run has ended (R192). -/
  | started
deriving DecidableEq, Repr

/-- The core and the host's phase. -/
structure Session where
  core : State
  phase : HostPhase
deriving DecidableEq, Repr

/-- The core right after reset, nothing loaded. -/
def Session.initial : Session := { core := State.reset, phase := .afterReset }

/-- `reset`, any time the core is not running (R190): every state element goes to its reset value, an earlier
`Halted` or `Faulted` status and its record included (R200). -/
def hostReset (h : Session) : Option Session :=
  if h.core.status = .running then none else some Session.initial

/-- `load(image)`, after reset and before start (R190), once (R203): `M[i] <- image[i]` from address 0 on. An empty
image or one longer than memory fails to load and writes nothing (R203, D27, log entry 25). A core whose run has ended
is loaded again only after a reset (R180, R187). -/
def hostLoad (image : List Byte) (h : Session) : Option Session :=
  if h.phase = .afterReset ∧ 1 ≤ image.length ∧ image.length ≤ Config.memSize then
    some { core := { h.core with M := h.core.M.writeBytes Config.loadBase image }, phase := .loaded }
  else none

/-- `start`, after load (R190): `status <- Running` (R204). A core whose run has ended, by `HLT` or by a fault, is not
started again before a reset (R180, R187). -/
def hostStart (h : Session) : Option Session :=
  if h.phase = .loaded then some { core := { h.core with status := .running }, phase := .started } else none

/-- What can happen to a session: the host's three operations, and a step of the core. -/
inductive SessionEvent where
  | reset
  | load (image : List Byte)
  | start
  | step
deriving DecidableEq, Repr

/-- The session after an event. An operation that does not apply leaves it; a step is the core's own (R82). -/
def Session.after (h : Session) : SessionEvent → Session
  | .reset => (hostReset h).getD h
  | .load image => (hostLoad image h).getD h
  | .start => (hostStart h).getD h
  | .step =>
    match Sys2Proof.Machine.step h.core with
    | .next t => { h with core := t }
    | .fault _ => h
    | .refused _ => h

/-- The session after a list of events, the first one first. -/
def Session.afterAll (h : Session) (events : List SessionEvent) : Session := events.foldl Session.after h

/-- Reset, load and start: the state in which a program's first step is taken (R42). -/
def boot (image : List Byte) : Option State := ((hostLoad image Session.initial).bind hostStart).map Session.core

/-- The numeric code of a fault kind (R170, D11, log entry 9). -/
def FaultKind.code : FaultKind → Nat
  | .invalidInstruction => 1
  | .operandOutOfRange => 2
  | .stackOverflow => 3
  | .stackUnderflow => 4

/-- `status_out`: the status, and the code of its fault (R190). -/
def State.statusOut (s : State) : Status × Option Nat :=
  match s.status with
  | .running => (.running, none)
  | .halted => (.halted, none)
  | .faulted r => (.faulted r, some r.kind.code)

/-- `state_view`: the read-only view of `x`, `pc`, `FL` and `M` (R186, R190). -/
def State.view (s : State) : Vector Byte 8 × Nat × Byte × Memory := (s.x, s.pc, s.FL.toByte, s.M)

/-- The decimal digits of a value below 1000, most significant first, without leading zeros. -/
def decimalDigits (n : Nat) : List Nat :=
  if n < 10 then [n]
  else if n < 100 then [n / 10, n % 10]
  else [n / 100, n / 10 % 10, n % 10]

/-- The characters of one console value: its decimal digits and a line feed (R191, D17, log entry 15). -/
def consoleLine (v : Byte) : List Char := (decimalDigits v.toNat).map Nat.digitChar ++ ['\n']

/-- `console_out` as the host renders it (R191). -/
def State.consoleText (s : State) : List Char := s.console.flatMap consoleLine

end Sys2Proof.Machine
end

