-- ==== Sys2Proof/Safety.lean ====
section
/-! DEFINITION. The invariant of the core's states, what a safe state is, and when an instruction completes. -/

namespace Sys2Proof.Machine

/-- At most one flag is set (10_state.md R32). -/
def Flags.atMostOne (f : Flags) : Prop :=
  ¬(f.E = true ∧ f.G = true) ∧ ¬(f.E = true ∧ f.L = true) ∧ ¬(f.G = true ∧ f.L = true)

/-- Exactly one flag is set. -/
def Flags.exactlyOne (f : Flags) : Prop :=
  f.atMostOne ∧ (f.E = true ∨ f.G = true ∨ f.L = true)

/-- The status holds no fault record, or one that tells of the instruction at `pc` (R34, R177). -/
def State.recordAgrees (s : State) : Prop :=
  ∀ r, s.status = .faulted r → r.pc = s.pc ∧ r.opcode = s.opcode?

/-- What every step keeps: `pc` is 0..256 (R25), memory is in its canonical form, at most one flag is set (R32), and a
fault record tells of the instruction at `pc`. -/
structure State.Inv (s : State) : Prop where
  pcInRange : s.pc ≤ Config.memSize
  memoryCanonical : s.M.wf
  flagsExclusive : s.FL.atMostOne
  recordAgrees : s.recordAgrees

/-- The core has not faulted. -/
def State.Safe (s : State) : Prop := ∀ r, s.status ≠ .faulted r

/-- The own conditions of an instruction, those of its pseudocode: where they hold it raises no fault of its own
(R172 case 4, R173, R174; the spec's decisions D18 and D20, log entries 16 and 18). -/
def State.MayComplete (s : State) (i : Instr) : Prop :=
  match i with
  | .push _ => s.sp ≠ 0x00#8
  | .pop a => s.sp ≠ Config.spInit ∧ s.sp ≠ 0xFF#8 ∧ (a = 7#8 → s.M.read s.sp.toNat ≠ 0xFF#8)
  | .call _ => s.pc + 2 ≤ 255 ∧ s.sp ≠ 0x00#8
  | .ret => s.sp ≠ Config.spInit ∧ s.sp ≠ 0xFF#8
  | .ldi _ _ => True
  | .prn _ => True
  | .hlt => True
  | .jmp _ => True
  | .jeq _ => True
  | .jne _ => True
  | .add _ _ => True
  | .sub _ _ => True
  | .mul _ _ => True
  | .cmp _ _ => True
  | .and _ _ => True
  | .or _ _ => True
  | .xor _ _ => True
  | .not _ _ => True
  | .shl _ _ => True

end Sys2Proof.Machine
end

