-- ==== Sys2Proof/Certificates/Slice0/Obligations.lean ====
section
/-! DEFINITION. The statements about the core, from the numbered rules of spec/. -/

open Sys2Proof Sys2Proof.Machine

namespace Sys2Proof.Claims

/-- The core is running and the bytes at `pc` are those of the instruction, all inside memory. -/
def Placed (i : Instr) (s : State) : Prop :=
  s.status = .running ∧ s.pc + (encode i).length ≤ 256 ∧
    ∀ k (h : k < (encode i).length), s.M.read (s.pc + k) = (encode i)[k]

/-- `s` with only the status changed: the fault of kind `k` at this `pc` with this opcode (R34, R176). -/
def faultedAs (s : State) (k : FaultKind) (opcode : Option Byte) : State :=
  { s with status := .faulted { kind := k, pc := s.pc, opcode := opcode } }

/-- The byte at `pc`, `none` past memory: the opcode a fault record holds (R34). -/
def opcodeAt (s : State) : Option Byte := if s.pc < 256 then some (s.M.read s.pc) else none

/-- The faults every instruction shares, raised before its own effect (R83): its bytes pass address 255, or a
register byte is above 7. Both raise `OperandOutOfRange`, record `pc` and the opcode, and change nothing else. -/
def CommonFaults (i : Instr) : Prop :=
  (∀ s : State, s.status = .running → s.pc < 256 → some (s.M.read s.pc) = (encode i).head? →
    256 < s.pc + (encode i).length → step s = .next (faultedAs s .operandOutOfRange (some (s.M.read s.pc)))) ∧
  (¬i.WellFormed → ∀ s : State, Placed i s →
    step s = .next (faultedAs s .operandOutOfRange (some (s.M.read s.pc))))

/-- The registers an instruction may write: the one its first byte names, and `SP` for the stack instructions. -/
def MayWrite (i : Instr) (r : Reg) : Prop :=
  match i with
  | .ldi a _ => a.toNat = r.val
  | .prn _ => False
  | .hlt => False
  | .push _ => r = 7
  | .pop a => a.toNat = r.val ∨ r = 7
  | .call _ => r = 7
  | .ret => r = 7
  | .jmp _ => False
  | .jeq _ => False
  | .jne _ => False
  | .add a _ => a.toNat = r.val
  | .sub a _ => a.toNat = r.val
  | .mul a _ => a.toNat = r.val
  | .cmp _ _ => False
  | .and a _ => a.toNat = r.val
  | .or a _ => a.toNat = r.val
  | .xor a _ => a.toNat = r.val
  | .not a _ => a.toNat = r.val
  | .shl a _ => a.toNat = r.val

/-- The number an opcode-table row writes for an instruction's bytes: the opcode most significant. -/
def tableNumber (i : Instr) : Nat := (encode i).foldl (fun n b => n * 256 + b.toNat) 0

end Sys2Proof.Claims

open Sys2Proof.Claims

/-! ### Encoding -/

/-- Decoding an encoded well-formed instruction gives it back, whatever follows it (R71, R74, R75, R80). -/
def Obligations.DecodeOfEncode : Prop :=
  ∀ (i : Instr) (rest : List Byte), i.WellFormed → decode (encode i ++ rest) = .ok (i, rest)

/-- What decodes is the encoding of a well-formed instruction, so no two byte sequences stand for one
instruction (R80, R86, R88). That a register byte is the whole byte, 0 to 7, with nothing masked, is the spec's decision
D4 (log entry 3). -/
def Obligations.DecodedBytesAreTheEncoding : Prop :=
  ∀ (bs : List Byte) (i : Instr) (rest : List Byte), decode bs = .ok (i, rest) →
    i.WellFormed ∧ bs = encode i ++ rest

/-- The length follows from the opcode byte alone (R77), by the width column of R80, which is what a sequential handler
advances by; the operand count in bits 7:6 agrees with it for every opcode but `NOT`'s. The opcode values are the spec's
decision D2, the 3 bytes of `NOT` D3 (log entries 1 and 2). -/
def Obligations.LengthFromOpcodeAlone : Prop :=
  (∀ (op : Byte) (bs bs' : List Byte) (i i' : Instr) (r r' : List Byte),
    decode (op :: bs) = .ok (i, r) → decode (op :: bs') = .ok (i', r') → i.width = i'.width) ∧
  (∀ a b v : Byte, (Instr.ldi a v).width = 3 ∧ (Instr.prn a).width = 2 ∧ Instr.hlt.width = 1 ∧
    (Instr.push a).width = 2 ∧ (Instr.pop a).width = 2 ∧ (Instr.call a).width = 2 ∧ Instr.ret.width = 1 ∧
    (Instr.jmp a).width = 2 ∧ (Instr.jeq a).width = 2 ∧ (Instr.jne a).width = 2 ∧ (Instr.add a b).width = 3 ∧
    (Instr.sub a b).width = 3 ∧ (Instr.mul a b).width = 3 ∧ (Instr.cmp a b).width = 3 ∧ (Instr.and a b).width = 3 ∧
    (Instr.or a b).width = 3 ∧ (Instr.xor a b).width = 3 ∧ (Instr.not a b).width = 3 ∧ (Instr.shl a b).width = 3) ∧
  (∀ (i : Instr) (s t : State), i.kind = .sequential → s.status = .running → exec i s = .next t →
    t.status = .running → t.pc = s.pc + i.width) ∧
  (∀ (i : Instr) (op : Byte) (rest : List Byte), encode i = op :: rest →
    ((∀ a b, i ≠ .not a b) → i.width = 1 + op.toNat / 64) ∧
    ((∃ a b, i = .not a b) → i.width = 3 ∧ op.toNat / 64 = 1))

/-- The bit fields of the opcode byte in the spec's opcode assignment (R73, general knowledge G2, decision D2, log
entry 1): bits 7:6 count the operands except for `NOT`, bit 5 marks the ALU, bit 4 control transfer. -/
def Obligations.OpcodeBitFields : Prop :=
  ∀ (i : Instr) (op : Byte) (operands : List Byte), encode i = op :: operands →
    ((∀ a b, i ≠ .not a b) → op.toNat / 64 = operands.length) ∧
    (op.getLsbD 4 = true ↔ i.kind = .controlTransfer) ∧
    (op.getLsbD 5 = true ↔ ∃ a b : Byte, i = .add a b ∨ i = .sub a b ∨ i = .mul a b ∨ i = .cmp a b ∨ i = .and a b ∨
      i = .or a b ∨ i = .xor a b ∨ i = .not a b ∨ i = .shl a b)

/-- Words written out bit by bit from the formats of R71 and the opcodes of R80 (decision D2, log entry 1) decode to
their instructions. -/
def Obligations.WordsDecodeAsTheTableSays : Prop :=
  decode [0b10000010#8, 0b00000010#8, 0b11001000#8] = .ok (.ldi 2 200, []) ∧
  decode [0b00000001#8] = .ok (.hlt, []) ∧
  decode [0b01000101#8, 0b00000001#8] = .ok (.push 1, []) ∧
  decode [0b01010101#8, 0b00000010#8] = .ok (.jeq 2, []) ∧
  decode [0b10100001#8, 0b00000011#8, 0b00000001#8] = .ok (.sub 3 1, []) ∧
  decode [0b01101001#8, 0b00000001#8, 0b00000000#8] = .ok (.not 1 0, [])

/-- An opcode byte begins some instruction exactly when it is one of the nineteen values of R80; every other one of
the 256 is refused by name, whatever follows (R86; the values are the spec's decision D2, log entry 1). -/
def Obligations.NineteenOpcodes : Prop :=
  ∀ op : Byte,
    ((∃ bs i rest, decode (op :: bs) = .ok (i, rest)) ↔
      op ∈ [0x82#8, 0x47#8, 0x01#8, 0x45#8, 0x46#8, 0x50#8, 0x11#8, 0x54#8, 0x55#8, 0x56#8, 0xA0#8, 0xA1#8, 0xA2#8,
        0xA7#8, 0xA8#8, 0xAA#8, 0xAB#8, 0x69#8, 0xAC#8]) ∧
    ((¬∃ bs i rest, decode (op :: bs) = .ok (i, rest)) → ∀ bs, decode (op :: bs) = .error (.unknownOpcode op))

/-- A well-formed instruction's opcode-table number reads back as that instruction, and placing it for the fetch makes
the very next step run it (the numbering is log entry 29, the placing log entry 30). -/
def Obligations.TableWordIsRunNext : Prop :=
  ∀ i : Instr, i.WellFormed →
    decodeTableWord (8 * i.width) (tableNumber i) = some i ∧
    ∀ s : State, step (s.withFetchWord (8 * i.width) (tableNumber i)) =
      exec i (s.withFetchWord (8 * i.width) (tableNumber i))

/-! ### The step and its faults -/

/-- When the bytes at `pc` of a running core are those of a well-formed instruction, the step is that instruction's
`exec`, with nothing around it (R83, R84). -/
def Obligations.StepRunsTheDecodedInstruction : Prop :=
  ∀ (s : State) (i : Instr), i.WellFormed → Placed i s → step s = exec i s

/-- R171: a step whose opcode byte is not in the opcode map raises `InvalidInstruction` and records `pc` and that
byte; no instruction raises it. (That nothing else changes then is part of `FetchFaultsInOrder`.) -/
def Obligations.InvalidInstructionByOpcodeOnly : Prop :=
  (∀ s : State, s.status = .running → s.pc < 256 → lookupOp (s.M.read s.pc) = none →
    ∃ t r, step s = .next t ∧ t.status = .faulted r ∧ r.kind = .invalidInstruction ∧ r.pc = s.pc ∧
      r.opcode = some (s.M.read s.pc)) ∧
  (∀ (i : Instr) (s t : State) (r : FaultRecord), s.status = .running → exec i s = .next t →
    t.status = .faulted r → r.kind ≠ .invalidInstruction)

/-- A fetch at `pc` 256 faults with no opcode; then an unknown opcode is reported even where bytes are missing; then
missing bytes; then a bad register byte, before any condition of the instruction itself (R83 and R178; the order is
the spec's decision D25, log entry 23; the range check is D9, the register check D4). -/
def Obligations.FetchFaultsInOrder : Prop :=
  (∀ s : State, s.status = .running → 256 ≤ s.pc → step s = .next (faultedAs s .operandOutOfRange none)) ∧
  (∀ s : State, s.status = .running → s.pc < 256 → lookupOp (s.M.read s.pc) = none →
    step s = .next (faultedAs s .invalidInstruction (some (s.M.read s.pc)))) ∧
  (∀ i : Instr, CommonFaults i)

/-- `OperandOutOfRange` is raised in the four cases of R172 and in no other (the cases rest on the spec's decisions
D4, D9 and D20, log entries 3, 10 and 18). -/
def Obligations.OperandOutOfRangeExactly : Prop :=
  ∀ s t : State, s.status = .running → s.pc ≤ 256 → step s = .next t →
    ((∃ r, t.status = .faulted r ∧ r.kind = .operandOutOfRange) ↔
      s.pc = 256 ∨
      (∃ i : Instr, s.pc < 256 ∧ some (s.M.read s.pc) = (encode i).head? ∧ 256 < s.pc + (encode i).length) ∨
      (∃ i : Instr, Placed i s ∧ ¬i.WellFormed) ∨
      (∃ b : Byte, Placed (.call b) s ∧ s.pc = 254))

/-- `StackOverflow` is raised exactly by a `PUSH` with `SP` = 0 and by a `CALL` with `SP` = 0 that is not at address
254, and `StackUnderflow` exactly by a `POP` or `RET` with `SP` = 0xF4 or 0xFF and by `POP R7` of the byte 0xFF (R173,
R174). The boundaries are the spec's decision D18 (log entry 16); that a `CALL` at 254 reports `OperandOutOfRange`
instead is D20 and D25 (R121, R178, log entries 18 and 23); that no register byte above 7 gets so far is D4 (log
entry 3). -/
def Obligations.StackFaultsExactly : Prop :=
  ∀ s t : State, s.status = .running → step s = .next t →
    ((∃ r, t.status = .faulted r ∧ r.kind = .stackOverflow) ↔
      s.sp = 0x00#8 ∧ ∃ b : Byte, b.toNat < 8 ∧ (Placed (.push b) s ∨ (Placed (.call b) s ∧ s.pc ≠ 254))) ∧
    ((∃ r, t.status = .faulted r ∧ r.kind = .stackUnderflow) ↔
      ((s.sp = 0xF4#8 ∨ s.sp = 0xFF#8) ∧ (Placed .ret s ∨ ∃ b : Byte, b.toNat < 8 ∧ Placed (.pop b) s)) ∨
      (Placed (.pop 7) s ∧ s.M.read s.sp.toNat = 0xFF#8))

/-- Fault entry is precise: a step of a running core that faults changes the status and nothing else, and the record
holds the `pc` of that step and its opcode byte, `none` past memory (R176, R177; the spec's decisions D11 and D24, log
entries 9 and 22). -/
def Obligations.FaultsArePrecise : Prop :=
  ∀ (s t : State) (r : FaultRecord), s.status = .running → step s = .next t → t.status = .faulted r →
    t = { s with status := .faulted r } ∧ r.pc = s.pc ∧ r.opcode = opcodeAt s

/-- A core that is halted or faulted stays as it is, however long it is stepped (R180, the spec's decision D26; that a
step then answers the same state is the model's reading, log entry 28). -/
def Obligations.StoppedCoreStays : Prop :=
  ∀ (k : Nat) (s : State), s.status ≠ .running → Sys2Proof.core.run k s = .next s

/-- Every run of every length from every state goes through: the model has no stop of its own (log entry 34). -/
def Obligations.EveryRunAnswers : Prop :=
  ∀ (k : Nat) (s : State), ∃ t, Sys2Proof.core.run k s = .next t

/-- A step from running to halted ran the byte 0x01, `HLT`, at `pc`, and changed the status only (R192, R102; that `pc`
stays is the spec's decision D16, log entry 14).
The opcode byte is the spec's decision D2 (log entry 1). -/
def Obligations.HaltedEndIsAtHlt : Prop :=
  ∀ s t : State, s.status = .running → step s = .next t → t.status = .halted →
    s.M.read s.pc = 0x01#8 ∧ t = { s with status := .halted }

/-! ### Invariants -/

/-- Every step keeps the invariant: `pc` in 0..256, memory canonical, at most one flag set, a fault record that tells
of the instruction at `pc` (R25, R32, R34, R39).
The range of `pc` is the spec's decision D9, the record D11, the canonical form the model's (log entries 10, 9, 26). -/
def Obligations.StepKeepsInvariant : Prop :=
  ∀ s t : State, s.Inv → step s = .next t → t.Inv

/-- The invariant holds right after reset (R200, R42). It rests on the reset values that the spec chose: flags clear D7,
`pc` D8, memory D10, status D11 (log entries 6, 7, 8 and 9), and on the model's canonical form (log entry 26). -/
def Obligations.ResetMeetsInvariant : Prop := State.reset.Inv

/-- A run keeps the console stream it began with and only adds to its end (R41, R191). -/
def Obligations.ConsoleOnlyGrows : Prop :=
  ∀ (k : Nat) (s t : State), Sys2Proof.core.run k s = .next t → ∃ out, t.console = s.console ++ out

/-- When a running core steps to a state that has not faulted: exactly when the bytes at `pc` are, inside memory, those
of a well-formed instruction whose own conditions hold (R170 to R174, R178). The range of `pc` is the spec's decision D9,
the register bytes D4, the stack boundaries D18, the `CALL` at 254 D20 (log entries 10, 3, 16 and 18). -/
def Obligations.SafeStepExactly : Prop :=
  ∀ s : State, s.status = .running → ∃ t, step s = .next t ∧
    (t.Safe ↔ ∃ i : Instr, i.WellFormed ∧ Placed i s ∧ s.MayComplete i)

/-! ### What no instruction but the named ones does -/

/-- R29: the flags are written by `CMP` alone, read by `JEQ` and `JNE` alone, and those read `E` and only `E`: with other
flags in their place (the same `E` for `JEQ` and `JNE`) an instruction does the same, and leaves or writes the flags the
same way; `JEQ` and `JNE` go to different addresses with `E` set and with `E` clear, wherever the register does not hold
the address that the fall through goes to. -/
def Obligations.FlagsWrittenByCmpReadByJumps : Prop :=
  (∀ (i : Instr) (s t : State) (f : Flags), exec i s = .next t →
    ((∀ a b, i ≠ .cmp a b) → t.FL = s.FL) ∧
    (((∃ a, i = .jeq a ∨ i = .jne a) → f.E = s.FL.E) →
      ((∀ a b, i = .cmp a b → ¬(a.toNat < 8 ∧ b.toNat < 8)) → exec i { s with FL := f } = .next { t with FL := f }) ∧
      (∀ a b, i = .cmp a b → a.toNat < 8 → b.toNat < 8 → exec i { s with FL := f } = .next t))) ∧
  (∀ (a : Byte) (h : a.toNat < 8) (s : State) (f : Flags), s.x[a.toNat].toNat ≠ s.pc + 2 →
    ∀ i, i = Instr.jeq a ∨ i = Instr.jne a → ∃ t u,
      exec i { s with FL := { f with E := true } } = .next t ∧
      exec i { s with FL := { f with E := false } } = .next u ∧ t.pc ≠ u.pc)

/-- R41: the console stream starts empty, `PRN` appends the register's byte, nothing else writes it, and no instruction
reads it: with another stream in its place an instruction does the same and appends the same. -/
def Obligations.ConsoleWrittenByPrnReadByNone : Prop :=
  State.reset.console = [] ∧
  ∀ (i : Instr) (s t : State), exec i s = .next t → ∃ out : List Byte,
    t.console = s.console ++ out ∧
    (∀ (a : Byte) (h : a.toNat < 8), i = .prn a → out = [s.x[a.toNat]]) ∧
    ((∀ a : Byte, a.toNat < 8 → i ≠ .prn a) → out = []) ∧
    ∀ c : List Byte, exec i { s with console := c } = .next { t with console := c ++ out }

/-- The memory frame of every instruction: only `PUSH` and `CALL` store, and they store the one byte at the decremented
stack pointer (R39, R51, conflict C7). -/
def Obligations.OnlyPushAndCallStore : Prop :=
  ∀ (i : Instr) (s t : State), exec i s = .next t →
    ((∀ a, i ≠ .push a ∧ i ≠ .call a) → ∀ addr, t.M.read addr = s.M.read addr) ∧
    (∀ a, i = .push a ∨ i = .call a → ∀ addr, addr ≠ (s.sp - 1#8).toNat → t.M.read addr = s.M.read addr)

/-- Only `POP` and `RET` read memory as data: on another memory, with the same opcode byte at `pc` for a fault record,
every other instruction leaves the same registers, `pc`, flags, status and console, and stores the same bytes (R51). -/
def Obligations.OnlyPopAndRetLoad : Prop :=
  ∀ (i : Instr) (s t : State) (m : Memory), (∀ a, i ≠ .pop a) → i ≠ .ret → exec i s = .next t →
    opcodeAt { s with M := m } = opcodeAt s →
    ∃ u : State, exec i { s with M := m } = .next u ∧ u.x = t.x ∧ u.pc = t.pc ∧ u.FL = t.FL ∧ u.status = t.status ∧
      u.console = t.console ∧ ∀ addr, t.M.read addr ≠ s.M.read addr → u.M.read addr = t.M.read addr

/-- The register frame of every instruction: a register that is neither the one its first byte names as destination nor
the stack pointer of `PUSH`, `POP`, `CALL` or `RET` keeps its value (R21, R22, R110, R126, R140). -/
def Obligations.OtherRegistersKept : Prop :=
  ∀ (i : Instr) (s t : State) (r : Reg), exec i s = .next t → ¬MayWrite i r → t.reg r = s.reg r

/-- The status frame: an instruction leaves the status, or is `HLT` and sets `Halted`, or faults and changes nothing
else (R33, R84, R102, R177). That `HLT` leaves `pc` too is the spec's decision D16 (conflict C9, log entry 14), that a
fault changes nothing else D24 (log entry 22). -/
def Obligations.StatusChangesByHltOrFault : Prop :=
  ∀ (i : Instr) (s t : State), exec i s = .next t →
    (t.status = s.status ∧ i ≠ .hlt) ∨ (i = .hlt ∧ t = { s with status := .halted }) ∨
      ∃ k, t = faultedAs s k (opcodeAt s)

/-- The program counter of an instruction that does not fault: a sequential one advances it by its width without
wrap-around, `HLT` leaves it, a control transfer sets it to a byte, or to `pc + 2` when a conditional jump falls
through (R26, R84, R120; that `HLT` leaves it is the spec's decision D16 and the missing wrap-around D9, log entries 14
and 10). -/
def Obligations.PcByWidthOrToTarget : Prop :=
  ∀ (i : Instr) (s t : State), s.status = .running → exec i s = .next t → (∀ r, t.status ≠ .faulted r) →
    (i.kind = .sequential → t.pc = s.pc + i.width) ∧
    (i.kind = .terminal → t.pc = s.pc) ∧
    (i.kind = .controlTransfer → t.pc < 256 ∨ (t.pc = s.pc + 2 ∧ ∃ a, i = .jeq a ∨ i = .jne a))

/-! ### The instructions -/

/-- `LDI` (R100): encoding, shared faults, and for every register and every immediate the whole next state. The opcode
byte is the spec's decision D2, the shared faults D4 and D9 (log entries 1, 3 and 10). -/
def Obligations.LoadImmediate : Prop :=
  ∀ a imm : Byte, encode (.ldi a imm) = [0x82#8, a, imm] ∧ CommonFaults (.ldi a imm) ∧
    ∀ (h : a.toNat < 8) (s : State),
      exec (.ldi a imm) s = .next { s with x := s.x.set a.toNat imm h, pc := s.pc + 3 }

/-- `PRN` (R101): encoding, shared faults, and the whole next state: the register's byte is appended to the console. The
opcode byte is the spec's decision D2, the shared faults D4 and D9 (log entries 1, 3 and 10). -/
def Obligations.PrintRegister : Prop :=
  ∀ a : Byte, encode (.prn a) = [0x47#8, a] ∧ CommonFaults (.prn a) ∧
    ∀ (h : a.toNat < 8) (s : State),
      exec (.prn a) s = .next { s with console := s.console ++ [s.x[a.toNat]], pc := s.pc + 2 }

/-- `HLT` (R102): one byte at any address 0..255, the status becomes `Halted`, and nothing else changes; that `pc` keeps
the address of the `HLT` is the spec's decision D16 (log entry 14).
The opcode byte is the spec's decision D2 (log entry 1). -/
def Obligations.HaltStops : Prop :=
  encode .hlt = [0x01#8] ∧ (∀ s : State, exec .hlt s = .next { s with status := .halted }) ∧
    ∀ s : State, s.status = .running → s.pc < 256 → s.M.read s.pc = 0x01#8 →
      step s = .next { s with status := .halted }

/-- `PUSH` (R111, R113): with `SP` = 0 it raises `StackOverflow`; otherwise `SP` goes down by one and the byte at the
new `SP` is the register's value, read after the decrement. The boundary is the spec's decision D18, the order of
reading D19 (log entries 16 and 17).
The opcode bytes are the spec's decision D2, the shared faults D4 and D9 (log entries 1, 3 and 10). -/
def Obligations.PushRegister : Prop :=
  ∀ a : Byte, encode (.push a) = [0x45#8, a] ∧ CommonFaults (.push a) ∧ ∀ (h : a.toNat < 8) (s : State),
    (s.sp = 0x00#8 → exec (.push a) s = .next (faultedAs s .stackOverflow (opcodeAt s))) ∧
    (s.sp ≠ 0x00#8 → ∃ t, exec (.push a) s = .next t ∧
      t.M.read (s.sp - 1#8).toNat = (if a.toNat = 7 then s.sp - 1#8 else s.x[a.toNat]) ∧
      (∀ addr, addr ≠ (s.sp - 1#8).toNat → t.M.read addr = s.M.read addr) ∧
      t = { s with x := s.x.set 7 (s.sp - 1#8), M := t.M, pc := s.pc + 2 })

/-- `POP` (R112, R114): the empty stack and `SP` = 0xFF raise `StackUnderflow`; otherwise the register takes the byte at
`SP` and `SP` goes up by one; `POP R7` leaves the popped byte plus one, and raises `StackUnderflow` on 0xFF. The
boundaries are the spec's decision D18, the order of writing D19 (log entries 16 and 17).
The opcode bytes are the spec's decision D2, the shared faults D4 and D9 (log entries 1, 3 and 10). -/
def Obligations.PopRegister : Prop :=
  ∀ a : Byte, encode (.pop a) = [0x46#8, a] ∧ CommonFaults (.pop a) ∧ ∀ (h : a.toNat < 8) (s : State),
    (s.sp = 0xF4#8 ∨ s.sp = 0xFF#8 → exec (.pop a) s = .next (faultedAs s .stackUnderflow (opcodeAt s))) ∧
    (s.sp ≠ 0xF4#8 → s.sp ≠ 0xFF#8 → a.toNat ≠ 7 → exec (.pop a) s =
      .next { s with x := (s.x.set a.toNat (s.M.read s.sp.toNat) h).set 7 (s.sp + 1#8), pc := s.pc + 2 }) ∧
    (s.sp ≠ 0xF4#8 → s.sp ≠ 0xFF#8 → a.toNat = 7 → s.M.read s.sp.toNat ≠ 0xFF#8 → exec (.pop a) s =
      .next { s with x := s.x.set 7 (s.M.read s.sp.toNat + 1#8), pc := s.pc + 2 }) ∧
    (s.sp ≠ 0xF4#8 → s.sp ≠ 0xFF#8 → a.toNat = 7 → s.M.read s.sp.toNat = 0xFF#8 →
      exec (.pop a) s = .next (faultedAs s .stackUnderflow (opcodeAt s)))

/-- `CALL` (R121): a return address above 255 raises `OperandOutOfRange` before `SP` = 0 raises `StackOverflow`;
otherwise the return address `pc + 2` is pushed and `pc` goes to the register's value, read after the decrement. The
first is the spec's decision D20, the second D18, the order D19 and D25 (log entries 18, 16, 17 and 23).
The opcode bytes are the spec's decision D2, the shared faults D4 and D9 (log entries 1, 3 and 10). -/
def Obligations.CallSubroutine : Prop :=
  ∀ a : Byte, encode (.call a) = [0x50#8, a] ∧ CommonFaults (.call a) ∧ ∀ (h : a.toNat < 8) (s : State),
    (255 < s.pc + 2 → exec (.call a) s = .next (faultedAs s .operandOutOfRange (opcodeAt s))) ∧
    (s.pc + 2 ≤ 255 → s.sp = 0x00#8 → exec (.call a) s = .next (faultedAs s .stackOverflow (opcodeAt s))) ∧
    (s.pc + 2 ≤ 255 → s.sp ≠ 0x00#8 → ∃ t, exec (.call a) s = .next t ∧
      (t.M.read (s.sp - 1#8).toNat).toNat = s.pc + 2 ∧
      (∀ addr, addr ≠ (s.sp - 1#8).toNat → t.M.read addr = s.M.read addr) ∧
      t = { s with
        x := s.x.set 7 (s.sp - 1#8)
        M := t.M
        pc := if a.toNat = 7 then (s.sp - 1#8).toNat else s.x[a.toNat].toNat })

/-- `RET` (R122): the empty stack and `SP` = 0xFF raise `StackUnderflow` (boundaries: the spec's decision D18, log entry
16); otherwise `pc` goes to the byte at `SP` and `SP` goes up by one.
The opcode byte is the spec's decision D2 (log entry 1). -/
def Obligations.ReturnFromSubroutine : Prop :=
  encode .ret = [0x11#8] ∧ ∀ s : State,
    (s.sp = 0xF4#8 ∨ s.sp = 0xFF#8 → exec .ret s = .next (faultedAs s .stackUnderflow (opcodeAt s))) ∧
    (s.sp ≠ 0xF4#8 → s.sp ≠ 0xFF#8 →
      exec .ret s = .next { s with x := s.x.set 7 (s.sp + 1#8), pc := (s.M.read s.sp.toNat).toNat })

/-- `JMP`, `JEQ`, `JNE` (R123, R124, R125): encodings, shared faults, and the whole next state: `pc` goes to the
register's value, for `JEQ` if and only if `E` is set, for `JNE` if and only if `E` is clear, else to `pc + 2`. The opcode
bytes are the spec's decision D2, the shared faults D4 and D9 (log entries 1, 3 and 10). -/
def Obligations.JumpsGoToTheRegister : Prop :=
  ∀ a : Byte, encode (.jmp a) = [0x54#8, a] ∧ encode (.jeq a) = [0x55#8, a] ∧ encode (.jne a) = [0x56#8, a] ∧
    CommonFaults (.jmp a) ∧ CommonFaults (.jeq a) ∧ CommonFaults (.jne a) ∧ ∀ (h : a.toNat < 8) (s : State),
      exec (.jmp a) s = .next { s with pc := s.x[a.toNat].toNat } ∧
      exec (.jeq a) s = .next { s with pc := if s.FL.E = true then s.x[a.toNat].toNat else s.pc + 2 } ∧
      exec (.jne a) s = .next { s with pc := if s.FL.E = false then s.x[a.toNat].toNat else s.pc + 2 }

/-- `ADD`, `MUL`, `AND`, `OR`, `XOR` (R141, R143, R145, R146, R147): encodings, shared faults, and the whole next state:
the first register takes the exact result modulo 256 of the two values read before it is written, `pc` goes on by 3,
and nothing else changes. The opcode bytes are the spec's decision D2, the shared faults D4 and D9 (log entries 1, 3
and 10). -/
def Obligations.AluResultsModulo256 : Prop :=
  ∀ p ∈ ([(Instr.add, 0xA0#8, fun A B => A + B), (Instr.mul, 0xA2#8, fun A B => A * B),
      (Instr.and, 0xA8#8, fun A B => A &&& B), (Instr.or, 0xAA#8, fun A B => A ||| B),
      (Instr.xor, 0xAB#8, fun A B => A ^^^ B)] : List ((Byte → Byte → Instr) × Byte × (Nat → Nat → Nat))),
    ∀ a b : Byte, encode (p.1 a b) = [p.2.1, a, b] ∧ CommonFaults (p.1 a b) ∧
      ∀ (ha : a.toNat < 8) (hb : b.toNat < 8) (s : State), ∃ v : Byte,
        v.toNat = p.2.2 s.x[a.toNat].toNat s.x[b.toNat].toNat % 256 ∧
        exec (p.1 a b) s = .next { s with x := s.x.set a.toNat v ha, pc := s.pc + 3 }

/-- `SUB`, `NOT`, `SHL` (R142, R148, R149): encodings, shared faults (for `NOT` of the unused register byte too), and
the whole next state. The direction of `SUB` is the spec's decision D21, that `NOT` complements the first register D22,
that the whole byte is the shift amount D23 (log entries 19, 20 and 21).
The opcode bytes are the spec's decision D2, the shared faults D4 and D9 (log entries 1, 3 and 10). -/
def Obligations.SubNotShlResults : Prop :=
  ∀ a b : Byte, encode (.sub a b) = [0xA1#8, a, b] ∧ encode (.not a b) = [0x69#8, a, b] ∧
    encode (.shl a b) = [0xAC#8, a, b] ∧ CommonFaults (.sub a b) ∧ CommonFaults (.not a b) ∧ CommonFaults (.shl a b) ∧
    ∀ (ha : a.toNat < 8) (hb : b.toNat < 8) (s : State), ∃ d n l : Byte,
      (d.toNat : Int) = ((s.x[a.toNat].toNat : Int) - (s.x[b.toNat].toNat : Int)) % 256 ∧
      n.toNat = 255 - s.x[a.toNat].toNat ∧
      l.toNat = s.x[a.toNat].toNat * 2 ^ s.x[b.toNat].toNat % 256 ∧ (8 ≤ s.x[b.toNat].toNat → l = 0#8) ∧
      exec (.sub a b) s = .next { s with x := s.x.set a.toNat d ha, pc := s.pc + 3 } ∧
      exec (.not a b) s = .next { s with x := s.x.set a.toNat n ha, pc := s.pc + 3 } ∧
      exec (.shl a b) s = .next { s with x := s.x.set a.toNat l ha, pc := s.pc + 3 }

/-- `CMP` (R144, R32): it sets `E`, `G` or `L` by the unsigned order of the two values and clears the others, so exactly
one is set, and changes nothing else but `pc`. That the order is unsigned is the spec's decision D21 (log entry 19).
The opcode bytes are the spec's decision D2, the shared faults D4 and D9 (log entries 1, 3 and 10). -/
def Obligations.CompareSetsExactlyOneFlag : Prop :=
  ∀ a b : Byte, encode (.cmp a b) = [0xA7#8, a, b] ∧ CommonFaults (.cmp a b) ∧
    ∀ (ha : a.toNat < 8) (hb : b.toNat < 8) (s : State), ∃ f : Flags,
      (f.E = true ↔ s.x[a.toNat].toNat = s.x[b.toNat].toNat) ∧
      (f.G = true ↔ s.x[a.toNat].toNat > s.x[b.toNat].toNat) ∧
      (f.L = true ↔ s.x[a.toNat].toNat < s.x[b.toNat].toNat) ∧ f.exactlyOne ∧
      exec (.cmp a b) s = .next { s with FL := f, pc := s.pc + 3 }

/-! ### Laws of two instructions -/

/-- The stack's round trip (R115): a `PUSH` and then a `POP` move the byte and restore `SP`, and what happens instead
when a register is `R7`, when `SP` is 0 and when it is 0xF5. It rests on the spec's decisions D18 and D19 (log entries
16 and 17). -/
def Obligations.PushThenPop : Prop :=
  ∀ (a b : Byte) (ha : a.toNat < 8) (hb : b.toNat < 8) (s : State),
    (s.sp = 0x00#8 → exec (.push a) s = .next (faultedAs s .stackOverflow (opcodeAt s))) ∧
    (s.sp ≠ 0x00#8 → ∃ t, exec (.push a) s = .next t ∧ t.status = s.status ∧
      (s.sp = 0xF5#8 → exec (.pop b) t = .next (faultedAs t .stackUnderflow (opcodeAt t))) ∧
      (s.sp ≠ 0xF5#8 → a.toNat ≠ 7 → b.toNat ≠ 7 → exec (.pop b) t =
        .next { s with x := s.x.set b.toNat s.x[a.toNat] hb, M := t.M, pc := s.pc + 4 } ∧
        t.M.read (s.sp - 1#8).toNat = s.x[a.toNat]) ∧
      (s.sp ≠ 0xF5#8 → a.toNat = 7 → b.toNat ≠ 7 → exec (.pop b) t =
        .next { s with x := s.x.set b.toNat (s.sp - 1#8) hb, M := t.M, pc := s.pc + 4 }) ∧
      (s.sp ≠ 0xF5#8 → a.toNat ≠ 7 → b.toNat = 7 → s.x[a.toNat] ≠ 0xFF#8 → exec (.pop b) t =
        .next { s with x := s.x.set 7 (s.x[a.toNat] + 1#8), M := t.M, pc := s.pc + 4 }) ∧
      (s.sp ≠ 0xF5#8 → a.toNat ≠ 7 → b.toNat = 7 → s.x[a.toNat] = 0xFF#8 →
        exec (.pop b) t = .next (faultedAs t .stackUnderflow (opcodeAt t))) ∧
      (s.sp ≠ 0xF5#8 → a.toNat = 7 → b.toNat = 7 → exec (.pop b) t = .next { s with M := t.M, pc := s.pc + 4 }))

/-- The subroutine's round trip (R127): a `CALL` and then a `RET` come back to the address after the `CALL` with every
register, `SP` among them, as it was. It rests on the spec's decisions D18 and D20 (log entries 16 and 18). -/
def Obligations.CallThenReturn : Prop :=
  ∀ (a : Byte) (s : State), a.toNat < 8 → s.pc ≤ 253 → s.sp ≠ 0x00#8 → s.sp ≠ 0xF5#8 →
    ∃ t, exec (.call a) s = .next t ∧ exec .ret t = .next { s with M := t.M, pc := s.pc + 2 }

/-- A pushed byte is what the next fetch reads (R61, R113): when a `PUSH` stores right behind itself, the next step runs
the stored byte; stored 0x01, `HLT`, halts the core there (R102). The coherent fetch is the spec's decision D14 (log
entry 13), the byte that `PUSH R7` stores D19 (log entry 17), 0x01 as the opcode of `HLT` D2 (log entry 1), `pc` staying
after it D16 (log entry 14). -/
def Obligations.PushedByteIsFetched : Prop :=
  ∀ (a : Byte) (s : State) (h : a.toNat < 8), Placed (.push a) s → s.sp ≠ 0x00#8 → (s.sp - 1#8).toNat = s.pc + 2 →
    ∃ t, step s = .next t ∧ t.pc = s.pc + 2 ∧
      t.M.read t.pc = (if a.toNat = 7 then s.sp - 1#8 else s.x[a.toNat]) ∧
      (lookupOp (t.M.read t.pc) = none →
        step t = .next (faultedAs t .invalidInstruction (some (t.M.read t.pc)))) ∧
      (t.M.read t.pc = 0x01#8 → step t = .next { t with status := .halted })

/-! ### Memory, reset, host -/

/-- Memory accesses (R54, R55, R58): inside 0..255 a write is read back at its address and at no other, and keeps the
rest of the state; outside, both accesses raise `OperandOutOfRange`. -/
def Obligations.MemoryAccess : Prop :=
  ∀ (s : State) (addr : Nat) (v : Byte),
    (addr < 256 → ∃ t, memWrite s addr v = .ok t ∧ memRead t addr = .ok v ∧
      (∀ other, other ≠ addr → memRead t other = memRead s other) ∧ t = { s with M := t.M } ∧ (s.M.wf → t.M.wf)) ∧
    (256 ≤ addr → memRead s addr = .error .operandOutOfRange ∧ memWrite s addr v = .error .operandOutOfRange)

/-- Reset (R200, R42, R190): it leaves `SP` = 0xF4 (the source's value), and the values of the spec's decisions D6, D7,
D8, D10 and D11 (log entries 5 to 9) everywhere else, and the host may load again. That it applies exactly when the core
is not running is R190's, the spec's decision D1, as log entry 33 reads it. -/
def Obligations.ResetSetsEveryElement : Prop :=
  ∀ h : Session, (h.core.status = .running → hostReset h = none) ∧
    (h.core.status ≠ .running → ∃ t, hostReset h = some { core := t, phase := .afterReset } ∧
      t.x[7] = 0xF4#8 ∧ (∀ k (hk : k < 7), t.x[k] = 0x00#8) ∧
      t.pc = 0 ∧ t.FL = { E := false, G := false, L := false } ∧ (∀ addr, t.M.read addr = 0x00#8) ∧
      t.status = .halted ∧ t.console = [])

/-- Load and start (R203, R204, R40, R42): after reset, an image of 1 to 256 bytes stands at the addresses from 0 on, every
other byte is 0, and the core runs from `pc` 0 with everything else as reset left it; any other image fails to load.
The fill value is the spec's decision D10, the size limit D27, the running status D11 (log entries 8, 25 and 9). -/
def Obligations.BootRunsTheImage : Prop :=
  ∀ image : List Byte,
    (1 ≤ image.length → image.length ≤ 256 → ∃ s, boot image = some s ∧
      (∀ k (h : k < image.length), s.M.read k = image[k]) ∧ (∀ k, image.length ≤ k → s.M.read k = 0x00#8) ∧
      s = { State.reset with M := s.M, status := .running } ∧ s.Inv) ∧
    (image.length = 0 ∨ 256 < image.length → boot image = none)

/-- The console text of a value (R191, the spec's decision D17, log entry 15): decimal digits that denote it, without a
leading zero, and a line feed. -/
def Obligations.ConsoleTextIsDecimal : Prop :=
  ∀ v : Byte, ∃ digits : List Char, consoleLine v = digits ++ ['\n'] ∧ digits ≠ [] ∧
    (∀ c ∈ digits, '0' ≤ c ∧ c ≤ '9') ∧ digits.foldl (fun n c => n * 10 + (c.toNat - 48)) 0 = v.toNat ∧
    (digits.head? = some '0' → digits = ['0'])

/-- The end of a run is final until the host resets the core (R180, R187, R192): once a started core has halted or
faulted, no load, no start and no step changes it, in any number and order, and a reset applies. The spec's decision is
D26, the interface D1 (log entries 24 and 33). -/
def Obligations.EndedRunWaitsForReset : Prop :=
  ∀ (h : Session) (events : List SessionEvent), h.phase = .started → h.core.status ≠ .running →
    SessionEvent.reset ∉ events → h.afterAll events = h ∧ h.after .reset = Session.initial

/-- The host's operations in their order (R190, R203, R204): after any events from reset on, the invariant holds; a core
not yet loaded is as reset left it; one loaded but not started holds its image from address 0 on and is otherwise as
reset left it; only a started core runs; and reset, load and start apply exactly when R190 says. The interface is the
spec's decision D1, the image size D27, the status and reset values D6 to D11 (log entries 33, 25 and 5 to 9). -/
def Obligations.HostOperationsInOrder : Prop :=
  ∀ (events : List SessionEvent) (h : Session), h = Session.initial.afterAll events →
    h.core.Inv ∧
    (h.phase = .afterReset → h.core = State.reset) ∧
    (h.phase = .loaded → h.core = { State.reset with M := h.core.M } ∧ ∃ image : List Byte,
      1 ≤ image.length ∧ image.length ≤ 256 ∧ (∀ k (hk : k < image.length), h.core.M.read k = image[k]) ∧
      ∀ k, image.length ≤ k → h.core.M.read k = 0x00#8) ∧
    (h.core.status = .running → h.phase = .started) ∧
    ((∃ k, hostReset h = some k) ↔ h.core.status ≠ .running) ∧
    (∀ image : List Byte, (∃ k, hostLoad image h = some k) ↔
      h.phase = .afterReset ∧ 1 ≤ image.length ∧ image.length ≤ 256) ∧
    ((∃ k, hostStart h = some k) ↔ h.phase = .loaded)
end

