-- ==== Sys2Proof/Laws/WellFormed.lean ====
section
/-! SUPPORT. Well-formedness, constructor by constructor. -/

namespace Sys2Proof

variable (a b imm : Byte)

@[simp] theorem isRegByte_iff : isRegByte b = true ↔ b.toNat < 8 := by simp [isRegByte]

@[simp] theorem Instr.wellFormed_ldi : (Instr.ldi a imm).WellFormed ↔ a.toNat < 8 := isRegByte_iff a
@[simp] theorem Instr.wellFormed_hlt : Instr.hlt.WellFormed ↔ True := iff_true_intro rfl
@[simp] theorem Instr.wellFormed_ret : Instr.ret.WellFormed ↔ True := iff_true_intro rfl
@[simp] theorem Instr.wellFormed_prn : (Instr.prn a).WellFormed ↔ a.toNat < 8 := isRegByte_iff a
@[simp] theorem Instr.wellFormed_push : (Instr.push a).WellFormed ↔ a.toNat < 8 := isRegByte_iff a
@[simp] theorem Instr.wellFormed_pop : (Instr.pop a).WellFormed ↔ a.toNat < 8 := isRegByte_iff a
@[simp] theorem Instr.wellFormed_call : (Instr.call a).WellFormed ↔ a.toNat < 8 := isRegByte_iff a
@[simp] theorem Instr.wellFormed_jmp : (Instr.jmp a).WellFormed ↔ a.toNat < 8 := isRegByte_iff a
@[simp] theorem Instr.wellFormed_jeq : (Instr.jeq a).WellFormed ↔ a.toNat < 8 := isRegByte_iff a
@[simp] theorem Instr.wellFormed_jne : (Instr.jne a).WellFormed ↔ a.toNat < 8 := isRegByte_iff a

theorem isRegByte_and : (isRegByte a && isRegByte b) = true ↔ a.toNat < 8 ∧ b.toNat < 8 := by simp

@[simp] theorem Instr.wellFormed_add : (Instr.add a b).WellFormed ↔ a.toNat < 8 ∧ b.toNat < 8 := isRegByte_and a b
@[simp] theorem Instr.wellFormed_sub : (Instr.sub a b).WellFormed ↔ a.toNat < 8 ∧ b.toNat < 8 := isRegByte_and a b
@[simp] theorem Instr.wellFormed_mul : (Instr.mul a b).WellFormed ↔ a.toNat < 8 ∧ b.toNat < 8 := isRegByte_and a b
@[simp] theorem Instr.wellFormed_cmp : (Instr.cmp a b).WellFormed ↔ a.toNat < 8 ∧ b.toNat < 8 := isRegByte_and a b
@[simp] theorem Instr.wellFormed_and : (Instr.and a b).WellFormed ↔ a.toNat < 8 ∧ b.toNat < 8 := isRegByte_and a b
@[simp] theorem Instr.wellFormed_or : (Instr.or a b).WellFormed ↔ a.toNat < 8 ∧ b.toNat < 8 := isRegByte_and a b
@[simp] theorem Instr.wellFormed_xor : (Instr.xor a b).WellFormed ↔ a.toNat < 8 ∧ b.toNat < 8 := isRegByte_and a b
@[simp] theorem Instr.wellFormed_not : (Instr.not a b).WellFormed ↔ a.toNat < 8 ∧ b.toNat < 8 := isRegByte_and a b
@[simp] theorem Instr.wellFormed_shl : (Instr.shl a b).WellFormed ↔ a.toNat < 8 ∧ b.toNat < 8 := isRegByte_and a b

end Sys2Proof
end

