-- ==== Sys2Proof/Laws/Decode.lean ====
section
/-! SUPPORT. The opcode map's lemmas and the decoder's answers, format by format. -/

namespace Sys2Proof

/-- No opcode stands twice in the map. -/
theorem opMap_nodup : (opMap.map Prod.fst).Nodup := by decide

/-- Nineteen opcodes. -/
theorem opMap_length : opMap.length = 19 := rfl

/-- The shape of an instruction's opcode, with the instruction's own operand bytes. -/
def Instr.shape : Instr → Shape
  | .ldi _ _ => .ri .ldi
  | .prn _ => .r .prn
  | .hlt => .n .hlt
  | .push _ => .r .push
  | .pop _ => .r .pop
  | .call _ => .r .call
  | .ret => .n .ret
  | .jmp _ => .r .jmp
  | .jeq _ => .r .jeq
  | .jne _ => .r .jne
  | .add _ _ => .rr .add
  | .sub _ _ => .rr .sub
  | .mul _ _ => .rr .mul
  | .cmp _ _ => .rr .cmp
  | .and _ _ => .rr .and
  | .or _ _ => .rr .or
  | .xor _ _ => .rr .xor
  | .not _ _ => .rr .not
  | .shl _ _ => .rr .shl

/-- The opcode byte of an instruction. -/
def Instr.opcode (i : Instr) : Byte := (encode i).headD 0#8

theorem encode_cons (i : Instr) : encode i = i.opcode :: (encode i).tail := by cases i <;> rfl

theorem lookupOp_opcode (i : Instr) : lookupOp i.opcode = some i.shape := by cases i <;> rfl

theorem width_eq_shape_width (i : Instr) : i.width = i.shape.width := by cases i <;> rfl

theorem width_pos (i : Instr) : 1 ≤ i.width ∧ i.width ≤ 3 := by
  cases i <;> simp [Instr.width, encode]

/-- One instruction for each opcode. -/
def opcodeSamples : List Instr :=
  [.ldi 0 0, .prn 0, .hlt, .push 0, .pop 0, .call 0, .ret, .jmp 0, .jeq 0, .jne 0] ++
    [Instr.add, .sub, .mul, .cmp, .and, .or, .xor, .not, .shl].map fun make => make 0 0

/-- Every row of the map is the opcode and the shape of its sample. -/
theorem opMap_eq_samples : opMap = opcodeSamples.map fun i => (i.opcode, i.shape) := rfl

/-- What stands in the map: a shape whose instructions carry that opcode. -/
theorem lookupOp_cases {op : Byte} {shape : Shape} (h : lookupOp op = some shape) :
    ∃ i : Instr, op = i.opcode ∧ shape = i.shape := by
  obtain ⟨before, later, hm, -⟩ := List.lookup_eq_some_iff.1 h
  have hmem : (op, shape) ∈ opMap := by simp [hm]
  rw [opMap_eq_samples] at hmem
  obtain ⟨i, -, hi⟩ := List.mem_map.1 hmem
  exact ⟨i, (congrArg Prod.fst hi).symm, (congrArg Prod.snd hi).symm⟩

/-- Decoding a list that begins with an opcode of the map. -/
theorem decode_opcode (i : Instr) (rest : List Byte) :
    decode (i.opcode :: rest) = decodeOperands i.opcode i.shape rest := by
  simp only [decode, lookupOp_opcode]

theorem decode_unknown {op : Byte} (h : lookupOp op = none) (rest : List Byte) :
    decode (op :: rest) = .error (.unknownOpcode op) := by
  simp only [decode, h]

/-- What operand bytes a format accepts, and the instruction it makes of them. -/
theorem decodeOperands_ok {op : Byte} {shape : Shape} {bs rest : List Byte} {i : Instr}
    (h : decodeOperands op shape bs = .ok (i, rest)) :
    (shape = .n i ∧ bs = rest) ∨
      (∃ make b1, shape = .r make ∧ b1.toNat < 8 ∧ i = make b1 ∧ bs = b1 :: rest) ∨
      (∃ make b1 b2, shape = .ri make ∧ b1.toNat < 8 ∧ i = make b1 b2 ∧ bs = b1 :: b2 :: rest) ∨
      (∃ make b1 b2, shape = .rr make ∧ b1.toNat < 8 ∧ b2.toNat < 8 ∧ i = make b1 b2 ∧ bs = b1 :: b2 :: rest) := by
  unfold decodeOperands at h
  split at h
  · obtain ⟨rfl, rfl⟩ : _ ∧ _ := by simpa using h
    exact .inl ⟨rfl, rfl⟩
  · split at h
    next hb =>
      obtain ⟨rfl, rfl⟩ : _ ∧ _ := by simpa using h
      exact .inr (.inl ⟨_, _, rfl, by simpa using hb, rfl, rfl⟩)
    next => simp at h
  · split at h
    next hb =>
      obtain ⟨rfl, rfl⟩ : _ ∧ _ := by simpa using h
      exact .inr (.inr (.inl ⟨_, _, _, rfl, by simpa using hb, rfl, rfl⟩))
    next => simp at h
  · split at h
    next hb =>
      split at h
      next hb2 =>
        obtain ⟨rfl, rfl⟩ : _ ∧ _ := by simpa using h
        exact .inr (.inr (.inr ⟨_, _, _, rfl, by simpa using hb, by simpa using hb2, rfl, rfl⟩))
      next => simp at h
    next => simp at h
  · simp at h

/-- Too few bytes after a known opcode. -/
theorem decodeOperands_short (i : Instr) (rest : List Byte) (h : rest.length + 1 < i.width) :
    decodeOperands i.opcode i.shape rest = .error (.truncated i.opcode) := by
  rcases rest with _ | ⟨b, _ | ⟨c, rest⟩⟩ <;> cases i <;> simp [Instr.width, encode] at h <;> first | rfl | omega

/-- The operand bytes of an ill-formed instruction. -/
theorem decodeOperands_illFormed (i : Instr) (h : ¬i.WellFormed) (rest : List Byte) : ∃ b,
    decodeOperands i.opcode i.shape ((encode i).tail ++ rest) = .error (.badRegister i.opcode b) := by
  cases i <;> simp at h <;>
    simp only [encode, Instr.shape, decodeOperands, List.tail_cons, List.cons_append, List.nil_append, isRegByte_iff]
  all_goals first
    | exact ⟨_, if_neg (by omega)⟩
    | (split
       · exact ⟨_, if_neg (by omega)⟩
       · exact ⟨_, rfl⟩)

end Sys2Proof
end

