-- ==== Sys2Proof/Laws/Memory.lean ====
section
/-! SUPPORT. The memory's laws: a read after a write, the canonical form kept by every operation, and equality of
canonical memories that read alike. -/

namespace Sys2Proof.Machine

theorem Memory.read_erase (m : Memory) (a b : Nat) :
    (m.erase a).read b = if b = a then Config.memFill else m.read b := by
  induction m with
  | nil => simp [erase, read]
  | cons c m ih =>
    obtain ⟨p, v⟩ := c
    by_cases hp : p = a
    · subst hp
      have he : Memory.erase ((p, v) :: m) p = Memory.erase m p := by simp [erase]
      rw [he, ih]
      by_cases hb : b = p
      · simp [hb]
      · simp [hb, read]
    · have he : Memory.erase ((p, v) :: m) a = (p, v) :: Memory.erase m a := by simp [erase, hp]
      rw [he, read, read, ih]
      by_cases hb : b = p
      · subst hb; simp [hp]
      · simp [hb]

theorem Memory.read_insert_ne (m : Memory) {a b : Nat} (v : Byte) (h : b ≠ a) :
    (m.insert a v).read b = m.read b := by
  induction m with
  | nil => simp [insert, read, h]
  | cons c m ih =>
    obtain ⟨p, w⟩ := c
    by_cases hp : a < p
    · simp [insert, hp, read, h]
    · simp [insert, hp, read, ih]

theorem Memory.read_insert_self (m : Memory) (a : Nat) (v : Byte) (h : ∀ c ∈ m, c.1 ≠ a) :
    (m.insert a v).read a = v := by
  induction m with
  | nil => simp [insert, read]
  | cons c m ih =>
    obtain ⟨p, w⟩ := c
    have hne : a ≠ p := fun e => h (p, w) (by simp) e.symm
    by_cases hp : a < p
    · simp [insert, hp, read]
    · simp [insert, hp, read, hne, ih fun c hc => h c (by simp [hc])]

theorem Memory.erase_ne (m : Memory) (a : Nat) : ∀ c ∈ m.erase a, c.1 ≠ a := by
  intro c hc
  simpa using (List.mem_filter.1 hc).2

/-- A read after a write: the written byte at its address, the old byte at every other one. -/
theorem Memory.read_write (m : Memory) (a b : Nat) (v : Byte) :
    (m.write a v).read b = if b = a then v else m.read b := by
  unfold write
  by_cases hv : v = Config.memFill
  · rw [if_pos hv, read_erase, hv]
  · rw [if_neg hv]
    by_cases hb : b = a
    · subst hb
      rw [if_pos rfl, read_insert_self _ _ _ (erase_ne m b)]
    · rw [if_neg hb, read_insert_ne _ _ hb, read_erase, if_neg hb]

@[simp] theorem Memory.read_write_self (m : Memory) (a : Nat) (v : Byte) : (m.write a v).read a = v := by
  rw [read_write, if_pos rfl]

@[simp] theorem Memory.read_write_ne (m : Memory) {a b : Nat} (v : Byte) (h : b ≠ a) :
    (m.write a v).read b = m.read b := by
  rw [read_write, if_neg h]

/-! ### The canonical form -/

theorem Memory.wf_nil : Memory.wf [] := by simp [wf]

theorem Memory.wf_erase {m : Memory} (h : m.wf) (a : Nat) : (m.erase a).wf :=
  ⟨h.1.filter _, fun c hc => h.2 c (List.mem_filter.1 hc).1⟩

theorem Memory.mem_insert {m : Memory} {a : Nat} {v : Byte} {c : Host.Cell}
    (h : c ∈ m.insert a v) : c = (a, v) ∨ c ∈ m := by
  induction m with
  | nil => simpa [insert] using h
  | cons d m ih =>
    obtain ⟨p, w⟩ := d
    by_cases hp : a < p
    · simpa [insert, hp] using h
    · simp only [insert, hp, if_false, List.mem_cons] at h ⊢
      rcases h with h | h
      · exact .inr (.inl h)
      · rcases ih h with h | h
        · exact .inl h
        · exact .inr (.inr h)

theorem Memory.wf_insert {m : Memory} (h : m.wf) {a : Nat} {v : Byte} (ha : a < Config.memSize)
    (hv : v ≠ Config.memFill) (hm : ∀ c ∈ m, c.1 ≠ a) : (m.insert a v).wf := by
  refine ⟨?_, fun c hc => ?_⟩
  · have hs := h.1
    clear h
    induction m with
    | nil => simp [insert]
    | cons d m ih =>
      obtain ⟨p, w⟩ := d
      have hcons := List.pairwise_cons.1 hs
      have hne : p ≠ a := hm (p, w) (by simp)
      by_cases hp : a < p
      · rw [insert, if_pos hp]
        refine List.pairwise_cons.2 ⟨fun c hc => ?_, hs⟩
        rcases List.mem_cons.1 hc with rfl | hc
        · exact hp
        · exact Nat.lt_trans hp (hcons.1 c hc)
      · rw [insert, if_neg hp]
        refine List.pairwise_cons.2 ⟨fun c hc => ?_, ih (fun c hc => hm c (by simp [hc])) hcons.2⟩
        rcases mem_insert hc with rfl | hc
        · simp only; omega
        · exact hcons.1 c hc
  · rcases mem_insert hc with rfl | hc
    · exact ⟨ha, hv⟩
    · exact h.2 c hc

/-- A write inside memory keeps the canonical form. -/
theorem Memory.wf_write {m : Memory} (h : m.wf) {a : Nat} (ha : a < Config.memSize) (v : Byte) :
    (m.write a v).wf := by
  unfold write
  by_cases hv : v = Config.memFill
  · rw [if_pos hv]; exact wf_erase h a
  · rw [if_neg hv]; exact wf_insert (wf_erase h a) ha hv (erase_ne m a)

/-- Writing bytes inside memory keeps the canonical form. -/
theorem Memory.wf_writeBytes {m : Memory} (h : m.wf) {a : Nat} {vs : List Byte}
    (ha : a + vs.length ≤ Config.memSize) : (m.writeBytes a vs).wf := by
  induction vs generalizing m a with
  | nil => exact h
  | cons v vs ih =>
    simp only [List.length_cons] at ha
    exact ih (wf_write h (by omega) v) (by omega)

/-- What reads back after a list of bytes is written. -/
theorem Memory.read_writeBytes (m : Memory) (a b : Nat) (vs : List Byte) :
    (m.writeBytes a vs).read b =
      if h : a ≤ b ∧ b - a < vs.length then vs[b - a]'h.2 else m.read b := by
  induction vs generalizing m a with
  | nil => simp [writeBytes]
  | cons v vs ih =>
    rw [writeBytes, ih, read_write]
    by_cases hb : b = a
    · subst hb
      simp
    · by_cases hle : a + 1 ≤ b ∧ b - (a + 1) < vs.length
      · have h2 : a ≤ b ∧ b - a < (v :: vs).length := by simp only [List.length_cons]; omega
        rw [dif_pos hle, dif_pos h2]
        have e : b - a = (b - (a + 1)) + 1 := by omega
        simp only [e, List.getElem_cons_succ]
      · have h2 : ¬(a ≤ b ∧ b - a < (v :: vs).length) := by simp only [List.length_cons]; omega
        rw [dif_neg hle, dif_neg h2, if_neg hb]

theorem Memory.read_of_lt {m : Memory} {b : Nat} (h : ∀ c ∈ m, b < c.1) :
    m.read b = Config.memFill := by
  induction m with
  | nil => rfl
  | cons c m ih =>
    obtain ⟨p, v⟩ := c
    have hp : b < p := h (p, v) (by simp)
    rw [read, if_neg (by omega), ih fun c hc => h c (by simp [hc])]

/-- Canonical memories that read alike are equal as data. -/
theorem Memory.eq_of_read {m n : Memory} (hm : m.wf) (hn : n.wf) (h : ∀ a, m.read a = n.read a) : m = n := by
  induction m generalizing n with
  | nil =>
    cases n with
    | nil => rfl
    | cons d n =>
      obtain ⟨q, w⟩ := d
      have hq := h q
      simp only [read, if_true] at hq
      exact absurd hq.symm (hn.2 (q, w) (by simp)).2
  | cons c m ih =>
    obtain ⟨p, v⟩ := c
    have hv : v ≠ Config.memFill := (hm.2 (p, v) (by simp)).2
    have hm' := List.pairwise_cons.1 hm.1
    cases n with
    | nil =>
      have hp := h p
      simp only [read, if_true] at hp
      exact absurd hp hv
    | cons d n =>
      obtain ⟨q, w⟩ := d
      have hw : w ≠ Config.memFill := (hn.2 (q, w) (by simp)).2
      have hn' := List.pairwise_cons.1 hn.1
      have hpq : p = q := by
        rcases Nat.lt_trichotomy p q with hlt | heq | hgt
        · have hp := h p
          simp only [read, if_true, if_neg (Nat.ne_of_lt hlt)] at hp
          rw [read_of_lt fun c hc => Nat.lt_trans hlt (hn'.1 c hc)] at hp
          exact absurd hp hv
        · exact heq
        · have hq := h q
          simp only [read, if_true, if_neg (Nat.ne_of_lt hgt)] at hq
          rw [read_of_lt fun c hc => Nat.lt_trans hgt (hm'.1 c hc)] at hq
          exact absurd hq.symm hw
      subst hpq
      have hvw : v = w := by simpa [read] using h p
      subst hvw
      have htail : m = n := by
        refine ih ⟨hm'.2, fun c hc => hm.2 c (by simp [hc])⟩ ⟨hn'.2, fun c hc => hn.2 c (by simp [hc])⟩ fun a => ?_
        by_cases ha : a = p
        · subst ha
          rw [read_of_lt fun c hc => hm'.1 c hc, read_of_lt fun c hc => hn'.1 c hc]
        · simpa only [read, if_neg ha] using h a
      rw [htail]

end Sys2Proof.Machine
end

