-- ==== Sys2Proof/Laws/State.lean ====
section
/-! SUPPORT. One lemma per field and per update of `State`, and the register file's read-after-write law. -/

namespace Sys2Proof.Machine

variable (s : State)

@[simp] theorem State.setReg_pc (r : Reg) (v : Byte) : (s.setReg r v).pc = s.pc := rfl
@[simp] theorem State.setReg_FL (r : Reg) (v : Byte) : (s.setReg r v).FL = s.FL := rfl
@[simp] theorem State.setReg_M (r : Reg) (v : Byte) : (s.setReg r v).M = s.M := rfl
@[simp] theorem State.setReg_status (r : Reg) (v : Byte) : (s.setReg r v).status = s.status := rfl
@[simp] theorem State.setReg_console (r : Reg) (v : Byte) : (s.setReg r v).console = s.console := rfl

@[simp] theorem State.setSp_pc (v : Byte) : (s.setSp v).pc = s.pc := rfl
@[simp] theorem State.setSp_FL (v : Byte) : (s.setSp v).FL = s.FL := rfl
@[simp] theorem State.setSp_M (v : Byte) : (s.setSp v).M = s.M := rfl
@[simp] theorem State.setSp_status (v : Byte) : (s.setSp v).status = s.status := rfl
@[simp] theorem State.setSp_console (v : Byte) : (s.setSp v).console = s.console := rfl

@[simp] theorem State.advance_pc (n : Nat) : (s.advance n).pc = s.pc + n := rfl
@[simp] theorem State.advance_FL (n : Nat) : (s.advance n).FL = s.FL := rfl
@[simp] theorem State.advance_M (n : Nat) : (s.advance n).M = s.M := rfl
@[simp] theorem State.advance_status (n : Nat) : (s.advance n).status = s.status := rfl
@[simp] theorem State.advance_console (n : Nat) : (s.advance n).console = s.console := rfl
@[simp] theorem State.advance_x (n : Nat) : (s.advance n).x = s.x := rfl
@[simp] theorem State.advance_reg (n : Nat) (q : Reg) : (s.advance n).reg q = s.reg q := rfl
@[simp] theorem State.advance_sp (n : Nat) : (s.advance n).sp = s.sp := rfl

@[simp] theorem State.jump_pc (v : Byte) : (s.jump v).pc = v.toNat := rfl
@[simp] theorem State.jump_FL (v : Byte) : (s.jump v).FL = s.FL := rfl
@[simp] theorem State.jump_M (v : Byte) : (s.jump v).M = s.M := rfl
@[simp] theorem State.jump_status (v : Byte) : (s.jump v).status = s.status := rfl
@[simp] theorem State.jump_console (v : Byte) : (s.jump v).console = s.console := rfl
@[simp] theorem State.jump_x (v : Byte) : (s.jump v).x = s.x := rfl
@[simp] theorem State.jump_reg (v : Byte) (q : Reg) : (s.jump v).reg q = s.reg q := rfl
@[simp] theorem State.jump_sp (v : Byte) : (s.jump v).sp = s.sp := rfl

@[simp] theorem State.setFlags_pc (f : Flags) : (s.setFlags f).pc = s.pc := rfl
@[simp] theorem State.setFlags_FL (f : Flags) : (s.setFlags f).FL = f := rfl
@[simp] theorem State.setFlags_M (f : Flags) : (s.setFlags f).M = s.M := rfl
@[simp] theorem State.setFlags_status (f : Flags) : (s.setFlags f).status = s.status := rfl
@[simp] theorem State.setFlags_console (f : Flags) : (s.setFlags f).console = s.console := rfl
@[simp] theorem State.setFlags_x (f : Flags) : (s.setFlags f).x = s.x := rfl
@[simp] theorem State.setFlags_reg (f : Flags) (q : Reg) : (s.setFlags f).reg q = s.reg q := rfl
@[simp] theorem State.setFlags_sp (f : Flags) : (s.setFlags f).sp = s.sp := rfl

@[simp] theorem State.consoleOut_pc (v : Byte) : (s.consoleOut v).pc = s.pc := rfl
@[simp] theorem State.consoleOut_FL (v : Byte) : (s.consoleOut v).FL = s.FL := rfl
@[simp] theorem State.consoleOut_M (v : Byte) : (s.consoleOut v).M = s.M := rfl
@[simp] theorem State.consoleOut_status (v : Byte) : (s.consoleOut v).status = s.status := rfl
@[simp] theorem State.consoleOut_console (v : Byte) : (s.consoleOut v).console = s.console ++ [v] := rfl
@[simp] theorem State.consoleOut_x (v : Byte) : (s.consoleOut v).x = s.x := rfl
@[simp] theorem State.consoleOut_reg (v : Byte) (q : Reg) : (s.consoleOut v).reg q = s.reg q := rfl
@[simp] theorem State.consoleOut_sp (v : Byte) : (s.consoleOut v).sp = s.sp := rfl

@[simp] theorem State.halt_pc : (s.halt).pc = s.pc := rfl
@[simp] theorem State.halt_FL : (s.halt).FL = s.FL := rfl
@[simp] theorem State.halt_M : (s.halt).M = s.M := rfl
@[simp] theorem State.halt_status : (s.halt).status = .halted := rfl
@[simp] theorem State.halt_console : (s.halt).console = s.console := rfl
@[simp] theorem State.halt_x : (s.halt).x = s.x := rfl
@[simp] theorem State.halt_reg (q : Reg) : (s.halt).reg q = s.reg q := rfl
@[simp] theorem State.halt_sp : (s.halt).sp = s.sp := rfl

@[simp] theorem State.raise_pc (k : FaultKind) : (s.raise k).pc = s.pc := rfl
@[simp] theorem State.raise_FL (k : FaultKind) : (s.raise k).FL = s.FL := rfl
@[simp] theorem State.raise_M (k : FaultKind) : (s.raise k).M = s.M := rfl
@[simp] theorem State.raise_status (k : FaultKind) : (s.raise k).status = .faulted { kind := k, pc := s.pc, opcode := s.opcode? } := rfl
@[simp] theorem State.raise_console (k : FaultKind) : (s.raise k).console = s.console := rfl
@[simp] theorem State.raise_x (k : FaultKind) : (s.raise k).x = s.x := rfl
@[simp] theorem State.raise_reg (k : FaultKind) (q : Reg) : (s.raise k).reg q = s.reg q := rfl
@[simp] theorem State.raise_sp (k : FaultKind) : (s.raise k).sp = s.sp := rfl

/-- Reading a register after a write: the written value there, the old value elsewhere. -/
theorem State.setReg_reg (r q : Reg) (v : Byte) :
    (s.setReg r v).reg q = if q = r then v else s.reg q := by
  have h : (s.setReg r v).reg q = (s.x.set r.val v r.isLt)[q.val] := rfl
  rw [h, Vector.getElem_set]
  by_cases e : r.val = q.val
  · rw [if_pos e, if_pos (Fin.ext e.symm)]
  · rw [if_neg e, if_neg fun w => e (congrArg Fin.val w.symm)]
    rfl

@[simp] theorem State.setReg_reg_self (r : Reg) (v : Byte) : (s.setReg r v).reg r = v := by
  rw [setReg_reg, if_pos rfl]

@[simp] theorem State.setReg_reg_ne {r q : Reg} (v : Byte) (h : q ≠ r) :
    (s.setReg r v).reg q = s.reg q := by
  rw [setReg_reg, if_neg h]

@[simp] theorem State.setSp_sp (v : Byte) : (s.setSp v).sp = v := s.setReg_reg_self _ v

@[simp] theorem State.setSp_reg_ne {q : Reg} (v : Byte) (h : q ≠ Config.spReg) :
    (s.setSp v).reg q = s.reg q := s.setReg_reg_ne v h

theorem State.setReg_sp (r : Reg) (v : Byte) :
    (s.setReg r v).sp = if Config.spReg = r then v else s.sp := s.setReg_reg r _ v

/-- Two states with the same registers have the same register file. -/
theorem State.x_eq_of_reg {s t : State} (h : ∀ r, s.reg r = t.reg r) : s.x = t.x :=
  Vector.ext fun i hi => h ⟨i, hi⟩

end Sys2Proof.Machine
end

