-- ==== Sys2Proof/Laws/Ops.lean ====
section
/-! SUPPORT. One lemma per shared operation that says everything it can answer; the provers cite these instead of
unfolding the operation. -/

namespace Sys2Proof.Machine

/-- A byte of 0..7 names its register. -/
theorem regOperand_ok {b : RegByte} (h : b.toNat < 8) : regOperand b = .ok ⟨b.toNat, h⟩ := by
  simp [regOperand, h]

/-- Any other byte raises `OperandOutOfRange`. -/
theorem regOperand_error {b : RegByte} (h : ¬b.toNat < 8) : regOperand b = .error .operandOutOfRange := by
  simp [regOperand, h]

theorem regOperand_cases (b : RegByte) :
    (∃ h : b.toNat < 8, regOperand b = .ok ⟨b.toNat, h⟩) ∨
      (¬b.toNat < 8 ∧ regOperand b = .error .operandOutOfRange) := by
  by_cases h : b.toNat < 8
  · exact .inl ⟨h, regOperand_ok h⟩
  · exact .inr ⟨h, regOperand_error h⟩

/-- A data address taken from a register is always in memory (20_memory.md R54). -/
@[simp] theorem memRead_byte (s : State) (a : Byte) : memRead s a.toNat = .ok (s.M.read a.toNat) := by
  have h : a.toNat < 256 := a.isLt
  simp [memRead, h]

@[simp] theorem memWrite_byte (s : State) (a v : Byte) :
    memWrite s a.toNat v = .ok { s with M := s.M.write a.toNat v } := by
  have h : a.toNat < 256 := a.isLt
  simp [memWrite, h]

/-- An instruction ends in its new state, or in its first state with a fault taken. -/
theorem commit_eq_next {s t : State} {r : Except FaultKind State} :
    commit s r = .next t ↔ r = .ok t ∨ ∃ k, r = .error k ∧ t = s.raise k := by
  cases r with
  | ok u => simp [commit]
  | error k => simp [commit, eq_comm]

theorem commit_total (s : State) (r : Except FaultKind State) : ∃ t, commit s r = .next t := by
  cases r with
  | ok u => exact ⟨u, rfl⟩
  | error k => exact ⟨s.raise k, rfl⟩

@[simp] theorem commit_ok (s t : State) : commit s (.ok t) = .next t := rfl

@[simp] theorem commit_error (s : State) (k : FaultKind) : commit s (.error k) = .next (s.raise k) := rfl

theorem except_bind_ok {α β : Type} (a : α) (f : α → Except FaultKind β) :
    ((Except.ok a : Except FaultKind α) >>= f) = f a := rfl

theorem except_bind_error {α β : Type} (k : FaultKind) (f : α → Except FaultKind β) :
    ((Except.error k : Except FaultKind α) >>= f) = .error k := rfl

/-- Peel one step off a body: it went on with a value, or raised. -/
theorem except_bind_eq_ok {α β : Type} {x : Except FaultKind α} {f : α → Except FaultKind β} {b : β} :
    (x >>= f) = .ok b ↔ ∃ a, x = .ok a ∧ f a = .ok b := by
  cases x with
  | ok a => simp [except_bind_ok]
  | error k => simp [except_bind_error]

/-- A push with `SP` = 0 raises `StackOverflow`. -/
theorem pushByte_zero {s : State} (value : State → Byte) (h : s.sp = 0#8) :
    pushByte value s = .error .stackOverflow := by
  simp [pushByte, h]

/-- Any other push decrements `SP` and stores the value at the new `SP`. -/
theorem pushByte_ok {s : State} (value : State → Byte) (h : s.sp ≠ 0#8) :
    pushByte value s = .ok { s.setSp (s.sp - 1#8) with
      M := s.M.write (s.sp - 1#8).toNat (value (s.setSp (s.sp - 1#8))) } := by
  simp only [pushByte, if_neg h, State.setSp_sp, memWrite_byte, State.setSp_M]

/-- A pop of the empty stack, or with `SP` = 0xFF, raises `StackUnderflow`. -/
theorem popByte_underflow {s : State} (dest : Byte → State → State)
    (h : s.sp = Config.spInit ∨ s.sp = 0xFF#8) : popByte dest s = .error .stackUnderflow := by
  simp only [popByte, if_pos h]

/-- Any other pop writes the destination; if the `SP` it finds then is 0xFF, it raises `StackUnderflow`. -/
theorem popByte_top {s : State} (dest : Byte → State → State)
    (h : ¬(s.sp = Config.spInit ∨ s.sp = 0xFF#8)) (hv : (dest (s.M.read s.sp.toNat) s).sp.toNat = 255) :
    popByte dest s = .error .stackUnderflow := by
  simp only [popByte, if_neg h, memRead_byte, except_bind_ok]
  rw [if_pos (by omega)]

/-- Otherwise it increments that `SP`. -/
theorem popByte_ok {s : State} (dest : Byte → State → State)
    (h : ¬(s.sp = Config.spInit ∨ s.sp = 0xFF#8)) (hv : (dest (s.M.read s.sp.toNat) s).sp.toNat ≠ 255) :
    popByte dest s = .ok ((dest (s.M.read s.sp.toNat) s).setSp ((dest (s.M.read s.sp.toNat) s).sp + 1#8)) := by
  have hlt : (dest (s.M.read s.sp.toNat) s).sp.toNat < 256 := (dest (s.M.read s.sp.toNat) s).sp.isLt
  simp only [popByte, if_neg h, memRead_byte, except_bind_ok]
  rw [if_neg (by omega)]

end Sys2Proof.Machine
end

