-- ==== Sys2Proof/Laws/Exec.lean ====
section
/-! SUPPORT. What the families' shared bodies answer, and the flag and arithmetic computations. -/

namespace Sys2Proof.Machine

/-- An ALU instruction with two register bytes writes its result and moves on by 3. -/
theorem aluOp_ok (f : Byte → Byte → Byte) {b1 b2 : RegByte} (h1 : b1.toNat < 8) (h2 : b2.toNat < 8) (s : State) :
    aluOp f b1 b2 s = .ok ((s.setReg ⟨b1.toNat, h1⟩
      (f (s.reg ⟨b1.toNat, h1⟩) (s.reg ⟨b2.toNat, h2⟩))).advance 3) := by
  simp [aluOp, regOperand_ok h1, regOperand_ok h2, except_bind_ok, pure, Except.pure]

/-- An ALU instruction with a byte that names no register raises `OperandOutOfRange`. -/
theorem aluOp_error (f : Byte → Byte → Byte) {b1 b2 : RegByte} (h : ¬(b1.toNat < 8 ∧ b2.toNat < 8)) (s : State) :
    aluOp f b1 b2 s = .error .operandOutOfRange := by
  by_cases h1 : b1.toNat < 8
  · have h2 : ¬b2.toNat < 8 := fun h2 => h ⟨h1, h2⟩
    simp [aluOp, regOperand_ok h1, regOperand_error h2, except_bind_ok]
  · simp [aluOp, regOperand_error h1, except_bind_error]

theorem jumpIf_ok (taken : Bool) {b1 : RegByte} (h1 : b1.toNat < 8) (s : State) :
    jumpIf taken b1 s = .ok (if taken then s.jump (s.reg ⟨b1.toNat, h1⟩) else s.advance 2) := by
  simp [jumpIf, regOperand_ok h1, except_bind_ok, pure, Except.pure]

theorem jumpIf_error (taken : Bool) {b1 : RegByte} (h1 : ¬b1.toNat < 8) (s : State) :
    jumpIf taken b1 s = .error .operandOutOfRange := by
  simp [jumpIf, regOperand_error h1]

/-! ### Arithmetic: the exact result modulo 256 -/

theorem aluAdd_toNat (A B : Byte) : (aluAdd A B).toNat = (A.toNat + B.toNat) % 256 := by
  simp [aluAdd]

theorem aluSub_toNat (A B : Byte) : (aluSub A B).toNat = (256 + A.toNat - B.toNat) % 256 := by
  have hA : A.toNat < 256 := A.isLt
  have hB : B.toNat < 256 := B.isLt
  simp only [aluSub, BitVec.toNat_ofInt]
  omega

theorem aluMul_toNat (A B : Byte) : (aluMul A B).toNat = (A.toNat * B.toNat) % 256 := by
  simp [aluMul]

theorem aluShl_toNat (A S : Byte) : (aluShl A S).toNat = (A.toNat * 2 ^ S.toNat) % 256 := by
  simp [aluShl, Nat.shiftLeft_eq]

/-- The whole shift amount counts: 8 or more gives 0. -/
theorem aluShl_eq_zero {A S : Byte} (h : 8 ≤ S.toNat) : aluShl A S = 0#8 := by
  apply BitVec.eq_of_toNat_eq
  obtain ⟨k, hk⟩ := Nat.exists_eq_add_of_le h
  rw [aluShl_toNat, hk, Nat.pow_add, ← Nat.mul_assoc, Nat.mul_right_comm, show (2 : Nat) ^ 8 = 256 from rfl,
    Nat.mul_mod_left]
  rfl

/-! ### Flags -/

theorem compareFlags_E (A B : Byte) : (compareFlags A B).E = decide (A.toNat = B.toNat) := by
  unfold compareFlags; split
  · simp_all
  · split <;> simp_all

theorem compareFlags_G (A B : Byte) : (compareFlags A B).G = decide (B.toNat < A.toNat) := by
  unfold compareFlags; split
  · simp_all
  · split <;> simp_all

theorem compareFlags_L (A B : Byte) : (compareFlags A B).L = decide (A.toNat < B.toNat) := by
  unfold compareFlags; split
  · simp_all
  · split
    · have : ¬A.toNat < B.toNat := by omega
      simp_all
    · have : A.toNat < B.toNat := by omega
      simp_all

/-- `CMP` sets exactly one flag. -/
theorem compareFlags_cases (A B : Byte) :
    (A.toNat = B.toNat ∧ compareFlags A B = { E := true, G := false, L := false }) ∨
      (B.toNat < A.toNat ∧ compareFlags A B = { E := false, G := true, L := false }) ∨
      (A.toNat < B.toNat ∧ compareFlags A B = { E := false, G := false, L := true }) := by
  rcases Nat.lt_trichotomy A.toNat B.toNat with h | h | h
  · refine .inr (.inr ⟨h, ?_⟩)
    rw [compareFlags, if_neg (by omega), if_neg (by omega)]
  · refine .inl ⟨h, ?_⟩
    rw [compareFlags, if_pos h]
  · refine .inr (.inl ⟨h, ?_⟩)
    rw [compareFlags, if_neg (by omega), if_pos h]

/-! ### What each instruction can answer

For every instruction, all the next states it can answer: the effect the spec gives it, or the fault taken. -/

section Inversion

variable {s t : State} {b1 b2 : RegByte}

/-- The shape of every meaning that decodes one register byte and then runs a body. -/
theorem commit_reg (f : Reg → Except FaultKind State) :
    commit s (regOperand b1 >>= f) = .next t ↔
      (∃ h : b1.toNat < 8, commit s (f ⟨b1.toNat, h⟩) = .next t) ∨
        (¬b1.toNat < 8 ∧ t = s.raise .operandOutOfRange) := by
  by_cases h : b1.toNat < 8
  · simp [regOperand_ok h, except_bind_ok, h]
  · simp [regOperand_error h, except_bind_error, h, eq_comm]

/-- The same with two register bytes: a bad byte of either kind raises the one fault. -/
theorem commit_regs (f : Reg → Reg → Except FaultKind State) :
    commit s (regOperand b1 >>= fun a => regOperand b2 >>= f a) = .next t ↔
      (∃ (h1 : b1.toNat < 8) (h2 : b2.toNat < 8), commit s (f ⟨b1.toNat, h1⟩ ⟨b2.toNat, h2⟩) = .next t) ∨
        (¬(b1.toNat < 8 ∧ b2.toNat < 8) ∧ t = s.raise .operandOutOfRange) := by
  rw [commit_reg]
  by_cases h1 : b1.toNat < 8
  · simp only [h1, commit_reg, not_true_eq_false, false_and, or_false, exists_true_left, true_and]
  · simp [h1]

theorem commit_pure {u : State} : commit s (pure u) = .next t ↔ t = u := by
  simp [pure, Except.pure, eq_comm]

theorem execLdi_next {imm : Byte} : execLdi b1 imm s = .next t ↔
    (∃ h : b1.toNat < 8, t = (s.setReg ⟨b1.toNat, h⟩ imm).advance 3) ∨
      (¬b1.toNat < 8 ∧ t = s.raise .operandOutOfRange) := by
  rw [execLdi, commit_reg]; simp only [commit_pure, immOperand]

theorem execPrn_next : execPrn b1 s = .next t ↔
    (∃ h : b1.toNat < 8, t = (s.consoleOut (s.reg ⟨b1.toNat, h⟩)).advance 2) ∨
      (¬b1.toNat < 8 ∧ t = s.raise .operandOutOfRange) := by
  rw [execPrn, commit_reg]; simp only [commit_pure]

theorem execHlt_next : execHlt s = .next t ↔ t = s.halt := by
  simp [execHlt, eq_comm]

/-- A push: `SP` goes down by one, and the value is stored at the new `SP`. -/
def State.pushed (s : State) (v : Byte) : State :=
  { s.setSp (s.sp - 1#8) with M := s.M.write (s.sp - 1#8).toNat v }

@[simp] theorem State.pushed_pc (v : Byte) : (s.pushed v).pc = s.pc := rfl
@[simp] theorem State.pushed_FL (v : Byte) : (s.pushed v).FL = s.FL := rfl
@[simp] theorem State.pushed_M (v : Byte) : (s.pushed v).M = s.M.write (s.sp - 1#8).toNat v := rfl
@[simp] theorem State.pushed_status (v : Byte) : (s.pushed v).status = s.status := rfl
@[simp] theorem State.pushed_console (v : Byte) : (s.pushed v).console = s.console := rfl
@[simp] theorem State.pushed_reg (v : Byte) (q : Reg) : (s.pushed v).reg q = (s.setSp (s.sp - 1#8)).reg q := rfl

theorem execPush_next : execPush b1 s = .next t ↔
    (∃ h : b1.toNat < 8, s.sp ≠ 0#8 ∧
      t = (s.pushed ((s.setSp (s.sp - 1#8)).reg ⟨b1.toNat, h⟩)).advance 2) ∨
      (b1.toNat < 8 ∧ s.sp = 0#8 ∧ t = s.raise .stackOverflow) ∨
      (¬b1.toNat < 8 ∧ t = s.raise .operandOutOfRange) := by
  rw [execPush, commit_reg]
  by_cases hb : b1.toNat < 8
  · by_cases h : s.sp = 0#8
    · simp [pushByte_zero _ h, hb, h, eq_comm]
    · simp only [pushByte_ok _ h, except_bind_ok, commit_pure]
      simp [hb, h, State.pushed]
  · simp [hb]

theorem execPop_next : execPop b1 s = .next t ↔
    (∃ h : b1.toNat < 8, ¬(s.sp = Config.spInit ∨ s.sp = 0xFF#8) ∧
      (s.setReg ⟨b1.toNat, h⟩ (s.M.read s.sp.toNat)).sp.toNat ≠ 255 ∧
      t = ((s.setReg ⟨b1.toNat, h⟩ (s.M.read s.sp.toNat)).setSp
        ((s.setReg ⟨b1.toNat, h⟩ (s.M.read s.sp.toNat)).sp + 1#8)).advance 2) ∨
      (∃ h : b1.toNat < 8, ((s.sp = Config.spInit ∨ s.sp = 0xFF#8) ∨
        (s.setReg ⟨b1.toNat, h⟩ (s.M.read s.sp.toNat)).sp.toNat = 255) ∧ t = s.raise .stackUnderflow) ∨
      (¬b1.toNat < 8 ∧ t = s.raise .operandOutOfRange) := by
  rw [execPop, commit_reg]
  by_cases hb : b1.toNat < 8
  · by_cases h : s.sp = Config.spInit ∨ s.sp = 0xFF#8
    · simp only [popByte_underflow _ h, except_bind_error, commit_error, h, hb]
      simp [eq_comm]
    · by_cases hv : (s.setReg ⟨b1.toNat, hb⟩ (s.M.read s.sp.toNat)).sp.toNat = 255
      · have e := popByte_top (fun v u => u.setReg ⟨b1.toNat, hb⟩ v) h hv
        simp only [e, except_bind_error, commit_error, h, hb, hv]
        simp [eq_comm]
      · have e := popByte_ok (fun v u => u.setReg ⟨b1.toNat, hb⟩ v) h hv
        simp only [e, except_bind_ok, commit_pure, h, hb, hv]
        simpa using fun _ => hv
  · simp [hb]

theorem execCall_next : execCall b1 s = .next t ↔
    (∃ h : b1.toNat < 8, s.pc + 2 ≤ 255 ∧ s.sp ≠ 0#8 ∧
      t = (s.pushed (BitVec.ofNat 8 (s.pc + 2))).jump ((s.setSp (s.sp - 1#8)).reg ⟨b1.toNat, h⟩)) ∨
      (b1.toNat < 8 ∧ s.pc + 2 ≤ 255 ∧ s.sp = 0#8 ∧ t = s.raise .stackOverflow) ∨
      (¬(b1.toNat < 8 ∧ s.pc + 2 ≤ 255) ∧ t = s.raise .operandOutOfRange) := by
  rw [execCall, commit_reg]
  by_cases hb : b1.toNat < 8
  · by_cases hp : s.pc + 2 ≤ 255
    · have hp' : ¬(s.pc + 2 > 255) := by omega
      by_cases h : s.sp = 0#8
      · simp only [if_neg hp', pushByte_zero _ h, except_bind_error, commit_error]
        simp [hb, hp, h, eq_comm]
      · simp only [if_neg hp', pushByte_ok _ h, except_bind_ok, commit_pure]
        simp [hb, hp, h, State.pushed, State.reg]
    · have hp' : s.pc + 2 > 255 := by omega
      simp only [if_pos hp', commit_error]
      simp [hb, hp, eq_comm]
  · simp [hb]

theorem execRet_next : execRet s = .next t ↔
    (¬(s.sp = Config.spInit ∨ s.sp = 0xFF#8) ∧
      t = (s.jump (s.M.read s.sp.toNat)).setSp (s.sp + 1#8)) ∨
      ((s.sp = Config.spInit ∨ s.sp = 0xFF#8) ∧ t = s.raise .stackUnderflow) := by
  by_cases h : s.sp = Config.spInit ∨ s.sp = 0xFF#8
  · simp only [execRet, popByte_underflow _ h, commit_error, h]
    simp [eq_comm]
  · have hne : s.sp.toNat ≠ 255 := fun e => h (.inr (BitVec.eq_of_toNat_eq e))
    rw [execRet, popByte_ok _ h hne, commit_ok, Host.Outcome.next.injEq]
    exact ⟨fun e => .inl ⟨h, e.symm⟩, fun e => e.elim (fun e => e.2.symm) fun e => absurd e.1 h⟩

theorem execJmp_next : execJmp b1 s = .next t ↔
    (∃ h : b1.toNat < 8, t = s.jump (s.reg ⟨b1.toNat, h⟩)) ∨
      (¬b1.toNat < 8 ∧ t = s.raise .operandOutOfRange) := by
  rw [execJmp, commit_reg]; simp only [commit_pure]

theorem jumpIf_next (taken : Bool) : commit s (jumpIf taken b1 s) = .next t ↔
    (∃ h : b1.toNat < 8, t = if taken then s.jump (s.reg ⟨b1.toNat, h⟩) else s.advance 2) ∨
      (¬b1.toNat < 8 ∧ t = s.raise .operandOutOfRange) := by
  rw [jumpIf, commit_reg]; simp only [commit_pure]

theorem aluOp_next (f : Byte → Byte → Byte) : commit s (aluOp f b1 b2 s) = .next t ↔
    (∃ (h1 : b1.toNat < 8) (h2 : b2.toNat < 8), t =
      (s.setReg ⟨b1.toNat, h1⟩ (f (s.reg ⟨b1.toNat, h1⟩) (s.reg ⟨b2.toNat, h2⟩))).advance 3) ∨
      (¬(b1.toNat < 8 ∧ b2.toNat < 8) ∧ t = s.raise .operandOutOfRange) := by
  rw [aluOp, commit_regs]; simp only [commit_pure]

theorem execCmp_next : execCmp b1 b2 s = .next t ↔
    (∃ (h1 : b1.toNat < 8) (h2 : b2.toNat < 8), t =
      (s.setFlags (compareFlags (s.reg ⟨b1.toNat, h1⟩) (s.reg ⟨b2.toNat, h2⟩))).advance 3) ∨
      (¬(b1.toNat < 8 ∧ b2.toNat < 8) ∧ t = s.raise .operandOutOfRange) := by
  rw [execCmp, commit_regs]; simp only [commit_pure]

end Inversion

/-- `exec` ends an instruction by `commit`: it answers the new state, or the state with a fault taken. -/
theorem exec_eq_commit (i : Instr) (s : State) : ∃ r, exec i s = commit s r := by
  cases i with
  | hlt => exact ⟨.ok s.halt, rfl⟩
  | ret => exact ⟨popByte (fun v u => u.jump v) s, rfl⟩
  | _ => exact ⟨_, rfl⟩

/-- `exec` never stops: it answers a next state for every instruction and every state. -/
theorem exec_total (i : Instr) (s : State) : ∃ t, exec i s = .next t := by
  obtain ⟨r, h⟩ := exec_eq_commit i s
  rw [h]
  exact commit_total s r

end Sys2Proof.Machine
end

