-- ==== Sys2Proof/Laws/Step.lean ====
section
/-! SUPPORT. What the fetch reads and what a step can do. -/

namespace Sys2Proof.Machine

theorem Memory.length_window (m : Memory) (a n : Nat) : (m.window a n).length = min n (256 - a) := by
  induction n generalizing a with
  | zero => simp [window]
  | succ n ih =>
    by_cases h : a < 256
    · simp only [window, Config.memSize, if_pos h, List.length_cons, ih]; omega
    · simp only [window, Config.memSize, if_neg h, List.length_nil]; omega

/-- The window holds the bytes of memory. -/
theorem Memory.getElem_window (m : Memory) (a n k : Nat) (h : k < (m.window a n).length) :
    (m.window a n)[k] = m.read (a + k) := by
  induction n generalizing a k with
  | zero => simp [window] at h
  | succ n ih =>
    by_cases ha : a < 256
    · simp only [window, Config.memSize, if_pos ha] at h ⊢
      cases k with
      | zero => rfl
      | succ k =>
        rw [List.getElem_cons_succ, ih, Nat.add_right_comm, Nat.add_assoc]
    · simp [window, ha] at h

/-- The fetch when `pc` is past memory: no byte. -/
theorem State.fetch_past {s : State} (h : ¬s.pc < 256) : s.fetch = [] := by
  simp [State.fetch, Memory.window, h]

/-- The fetch of an opcode of the map: as many bytes as its instruction has. -/
theorem State.fetch_known {s : State} (h : s.pc < 256) {shape : Shape}
    (hs : lookupOp (s.M.read s.pc) = some shape) : s.fetch = s.M.window s.pc shape.width := by
  simp [State.fetch, Memory.window, h, hs]

/-- The fetch of an opcode that is not in the map: the opcode alone. -/
theorem State.fetch_unknown {s : State} (h : s.pc < 256) (hs : lookupOp (s.M.read s.pc) = none) :
    s.fetch = [s.M.read s.pc] := by
  simp [State.fetch, Memory.window, h, hs]

/-- When the bytes at `pc` are those of an instruction, they are what is fetched. -/
theorem State.fetch_eq_encode {s : State} {i : Instr} (hp : s.pc + i.width ≤ 256)
    (hb : ∀ k (h : k < (encode i).length), s.M.read (s.pc + k) = (encode i)[k]) : s.fetch = encode i := by
  have hw := width_pos i
  have hlt : 0 < (encode i).length := hw.1
  have hop : s.M.read s.pc = i.opcode := by
    have h0 := hb 0 hlt
    rw [Nat.add_zero] at h0
    rw [h0]
    simp only [Instr.opcode]
    cases i <;> rfl
  have hf := State.fetch_known (s := s) (by omega) (by rw [hop]; exact lookupOp_opcode i)
  rw [hf, ← width_eq_shape_width]
  refine List.ext_getElem ?_ fun k h1 h2 => ?_
  · rw [Memory.length_window]
    have : i.width = (encode i).length := rfl
    omega
  · rw [Memory.getElem_window, hb k h2]

/-- What a step can do: nothing, when the core is not running; run the decoded instruction; or raise the fault of
bytes that are no instruction. -/
theorem step_cases {s t : State} (h : step s = .next t) :
    (s.status ≠ .running ∧ t = s) ∨
      (s.status = .running ∧ ∃ i rest, decode s.fetch = .ok (i, rest) ∧ exec i s = .next t) ∨
      (s.status = .running ∧ ∃ e, decode s.fetch = .error e ∧ t = s.raise (decodeFault e)) := by
  unfold step at h
  cases hs : s.status with
  | running =>
    rw [hs] at h
    cases hd : decode s.fetch with
    | ok p =>
      obtain ⟨i, rest⟩ := p
      rw [hd] at h
      exact .inr (.inl ⟨rfl, i, rest, rfl, h⟩)
    | error e =>
      rw [hd] at h
      exact .inr (.inr ⟨rfl, e, rfl, (Host.Outcome.next.inj h).symm⟩)
  | halted =>
    rw [hs] at h
    exact .inl ⟨by simp, (Host.Outcome.next.inj h).symm⟩
  | faulted r =>
    rw [hs] at h
    exact .inl ⟨by simp, (Host.Outcome.next.inj h).symm⟩

/-- A core that is not running stays as it is. -/
theorem step_stopped {s : State} (h : s.status ≠ .running) : step s = .next s := by
  cases hs : s.status with
  | running => exact absurd hs h
  | halted => simp only [step, hs]
  | faulted r => simp only [step, hs]

/-- A step always answers a next state. -/
theorem step_total (s : State) : ∃ t, step s = .next t := by
  unfold step
  split
  · split
    · exact exec_total _ _
    · exact ⟨_, rfl⟩
  · exact ⟨_, rfl⟩
  · exact ⟨_, rfl⟩

theorem step_running {s : State} {i : Instr} {rest : List Byte} (hs : s.status = .running)
    (hd : decode s.fetch = .ok (i, rest)) : step s = exec i s := by
  simp only [step, hs, hd]

theorem step_error {s : State} {e : DecodeError} (hs : s.status = .running)
    (hd : decode s.fetch = .error e) : step s = .next (s.raise (decodeFault e)) := by
  simp only [step, hs, hd]

end Sys2Proof.Machine
end

