-- ==== Sys2Proof/Laws/HostInterface.lean ====
section
/-! SUPPORT. What each operation of the host and each event of a session can do. -/

namespace Sys2Proof.Machine

theorem hostReset_eq_some {h k : Session} :
    hostReset h = some k ↔ h.core.status ≠ .running ∧ k = Session.initial := by
  simp [hostReset, eq_comm]

theorem hostLoad_eq_some {image : List Byte} {h k : Session} :
    hostLoad image h = some k ↔
      (h.phase = .afterReset ∧ 1 ≤ image.length ∧ image.length ≤ 256) ∧
        k = { core := { h.core with M := h.core.M.writeBytes 0 image }, phase := .loaded } := by
  unfold hostLoad
  split <;> simp_all [eq_comm]

theorem hostStart_eq_some {h k : Session} :
    hostStart h = some k ↔
      h.phase = .loaded ∧ k = { core := { h.core with status := .running }, phase := .started } := by
  unfold hostStart
  split <;> simp_all [eq_comm]

/-- A step of a session is the core's. -/
theorem Session.after_step {h : Session} {t : State} (e : step h.core = .next t) :
    h.after .step = { h with core := t } := by
  simp only [Session.after, e]

/-- An event leaves the session, or it is an operation that applies, or a step of the core. -/
theorem Session.after_cases (h : Session) (e : SessionEvent) :
    h.after e = h ∨
      (e = .reset ∧ h.core.status ≠ .running ∧ h.after e = Session.initial) ∨
      (∃ image, e = .load image ∧ hostLoad image h = some (h.after e)) ∨
      (e = .start ∧ hostStart h = some (h.after e)) ∨
      (e = .step ∧ ∃ t, step h.core = .next t ∧ h.after e = { h with core := t }) := by
  cases e with
  | reset =>
    by_cases hr : h.core.status = .running
    · exact .inl (by simp [Session.after, hostReset, hr])
    · exact .inr (.inl ⟨rfl, hr, by simp [Session.after, hostReset, hr]⟩)
  | load image =>
    cases hl : hostLoad image h with
    | none => exact .inl (by simp [Session.after, hl])
    | some k => exact .inr (.inr (.inl ⟨image, rfl, by simp [Session.after, hl]⟩))
  | start =>
    cases hl : hostStart h with
    | none => exact .inl (by simp [Session.after, hl])
    | some k => exact .inr (.inr (.inr (.inl ⟨rfl, by simp [Session.after, hl]⟩)))
  | step =>
    obtain ⟨t, ht⟩ := step_total h.core
    exact .inr (.inr (.inr (.inr ⟨rfl, t, ht, Session.after_step ht⟩)))

end Sys2Proof.Machine
end

