-- ==== Sys2Proof/Laws/PerInstr.lean ====
section
/-! SUPPORT. Statements about every instruction as syntax, one lemma per constructor. -/

namespace Sys2Proof.Laws.Encoding

/-- The opcode map holds the instruction's opcode byte, with a format of the instruction's own length, and the length
is 1, 2 or 3 bytes. -/
def Statement (i : Instr) : Prop :=
  ∃ op operands shape, encode i = op :: operands ∧ lookupOp op = some shape ∧
    shape.width = i.width ∧ 1 ≤ i.width ∧ i.width ≤ 3

theorem ofInstr (i : Instr) : Statement i :=
  ⟨i.opcode, (encode i).tail, i.shape, encode_cons i, lookupOp_opcode i, (width_eq_shape_width i).symm, width_pos i⟩

theorem ldi (a : RegByte) (imm : Byte) : Statement (.ldi a imm) := ofInstr _
theorem prn (a : RegByte) : Statement (.prn a) := ofInstr _
theorem hlt : Statement .hlt := ofInstr _
theorem push (a : RegByte) : Statement (.push a) := ofInstr _
theorem pop (a : RegByte) : Statement (.pop a) := ofInstr _
theorem call (a : RegByte) : Statement (.call a) := ofInstr _
theorem ret : Statement .ret := ofInstr _
theorem jmp (a : RegByte) : Statement (.jmp a) := ofInstr _
theorem jeq (a : RegByte) : Statement (.jeq a) := ofInstr _
theorem jne (a : RegByte) : Statement (.jne a) := ofInstr _
theorem add (a b : RegByte) : Statement (.add a b) := ofInstr _
theorem sub (a b : RegByte) : Statement (.sub a b) := ofInstr _
theorem mul (a b : RegByte) : Statement (.mul a b) := ofInstr _
theorem cmp (a b : RegByte) : Statement (.cmp a b) := ofInstr _
theorem and (a b : RegByte) : Statement (.and a b) := ofInstr _
theorem or (a b : RegByte) : Statement (.or a b) := ofInstr _
theorem xor (a b : RegByte) : Statement (.xor a b) := ofInstr _
theorem not (a b : RegByte) : Statement (.not a b) := ofInstr _
theorem shl (a b : RegByte) : Statement (.shl a b) := ofInstr _

end Sys2Proof.Laws.Encoding
end

