-- ==== Sys2Proof/Tests/Slice0.lean ====
section
/-! SUPPORT. Tests: well-formedness, words written out from the encodings of 30_encoding.md, single steps from the
vectors of 95_test_vectors.md, and a witness for the hypotheses of every statement. -/

open Sys2Proof Sys2Proof.Machine Sys2Proof.Claims

namespace Sys2Proof.Tests

/-- A running core after reset with some bytes at `pc`. -/
def ready (pc : Nat) (bytes : List Byte) : State :=
  { State.reset with M := Memory.writeBytes [] pc bytes, pc := pc, status := .running }

/-- The same with a byte of data. -/
def State.poke (s : State) (a : Nat) (v : Byte) : State := { s with M := s.M.write a v }

/-- The next state, if that is the answer. -/
def next? : Host.Outcome State Fault Refusal → Option State
  | .next t => some t
  | .fault _ => none
  | .refused _ => none

/-- One step, and one look at the state it leads to. -/
def after {α : Type} (s : State) (look : State → α) : Option α := (next? (step s)).map look

/-- A fault's record. -/
def faulted (kind : FaultKind) (pc : Nat) (op : Option Byte) : Option Status :=
  some (.faulted { kind := kind, pc := pc, opcode := op })

/-! ### Well-formedness: an ill-formed term for each check -/

theorem test_illFormed_firstRegister : (Instr.ldi 8 0).wellFormed = false := by decide
theorem test_illFormed_onlyRegister : (Instr.jmp 0x80).wellFormed = false := by decide
theorem test_illFormed_firstOfTwo : (Instr.cmp 9 0).wellFormed = false := by decide
theorem test_illFormed_secondOfTwo : (Instr.add 0 8).wellFormed = false := by decide
theorem test_illFormed_unusedRegister : (Instr.not 1 9).wellFormed = false := by decide
theorem test_wellFormed_bounds : (Instr.shl 7 7).wellFormed = true ∧ (Instr.ldi 7 255).wellFormed = true := by decide

/-! ### Decoding: words written bit by bit from R71 and R80 -/

theorem test_decode_dataMovement :
    decode [0b10000010#8, 0b00000010#8, 0b11001000#8] = .ok (.ldi 2 200, []) ∧
    decode [0b01000111#8, 0b00000111#8] = .ok (.prn 7, []) ∧
    decode [0b00000001#8] = .ok (.hlt, []) := ⟨rfl, rfl, rfl⟩

theorem test_decode_stack :
    decode [0b01000101#8, 0b00000001#8] = .ok (.push 1, []) ∧
    decode [0b01000110#8, 0b00000010#8] = .ok (.pop 2, []) := ⟨rfl, rfl⟩

theorem test_decode_controlTransfer :
    decode [0b01010000#8, 0b00000001#8] = .ok (.call 1, []) ∧
    decode [0b00010001#8] = .ok (.ret, []) ∧
    decode [0b01010100#8, 0b00000011#8] = .ok (.jmp 3, []) ∧
    decode [0b01010101#8, 0b00000010#8] = .ok (.jeq 2, []) ∧
    decode [0b01010110#8, 0b00000011#8] = .ok (.jne 3, []) := ⟨rfl, rfl, rfl, rfl, rfl⟩

theorem test_decode_arithmetic :
    decode [0b10100000#8, 0b00000000#8, 0b00000001#8] = .ok (.add 0 1, []) ∧
    decode [0b10100001#8, 0b00000011#8, 0b00000001#8] = .ok (.sub 3 1, []) ∧
    decode [0b10100010#8, 0b00000011#8, 0b00000010#8] = .ok (.mul 3 2, []) ∧
    decode [0b10100111#8, 0b00000000#8, 0b00000010#8] = .ok (.cmp 0 2, []) := ⟨rfl, rfl, rfl, rfl⟩

theorem test_decode_bitwise :
    decode [0b10101000#8, 0b00000000#8, 0b00000001#8] = .ok (.and 0 1, []) ∧
    decode [0b10101010#8, 0b00000000#8, 0b00000010#8] = .ok (.or 0 2, []) ∧
    decode [0b10101011#8, 0b00000010#8, 0b00000001#8] = .ok (.xor 2 1, []) ∧
    decode [0b01101001#8, 0b00000001#8, 0b00000000#8] = .ok (.not 1 0, []) ∧
    decode [0b10101100#8, 0b00000000#8, 0b00000011#8] = .ok (.shl 0 3, []) := ⟨rfl, rfl, rfl, rfl, rfl⟩

theorem test_decode_refusals :
    decode [] = .error .noOpcode ∧ decode [0x00#8] = .error (.unknownOpcode 0x00#8) ∧
    decode [0x13#8, 0x00#8] = .error (.unknownOpcode 0x13#8) ∧
    decode [0x82#8, 0x00#8] = .error (.truncated 0x82#8) ∧
    decode [0xA0#8, 0x80#8, 0x09#8] = .error (.badRegister 0xA0#8 0x80#8) ∧
    decode [0xA0#8, 0x00#8, 0x08#8] = .error (.badRegister 0xA0#8 0x08#8) := ⟨rfl, rfl, rfl, rfl, rfl, rfl⟩

/-- R91: the source's program is these twelve bytes. -/
theorem test_encode_worked :
    (List.map encode [.ldi 0 8, .ldi 1 9, .add 0 1, .prn 0, .hlt]).flatten =
      [0x82#8, 0x00#8, 0x08#8, 0x82#8, 0x01#8, 0x09#8, 0xA0#8, 0x00#8, 0x01#8, 0x47#8, 0x00#8, 0x01#8] := by decide

/-- The table's `match` numbers, opcode most significant (spec/opcode_table.json). -/
theorem test_tableWord : decodeTableWord 24 0x820000 = some (.ldi 0 0) ∧ decodeTableWord 16 0x4507 = some (.push 7) ∧
    decodeTableWord 8 0x11 = some .ret ∧ decodeTableWord 24 0x690109 = none := ⟨rfl, rfl, rfl, rfl⟩

/-- A table word is run as the first instruction after reset. -/
theorem test_withFetchWord : after (State.reset.withFetchWord 24 0x82032A) (fun t => (t.reg 3, t.pc, t.status)) =
    some (0x2A#8, 3, .running) := by decide

/-! ### Fetch and decode faults: 95_test_vectors.md section 2.1 -/

/-- V-D1. -/
theorem test_fetch_past_memory : after (ready 256 []) (fun t => t.status) = faulted .operandOutOfRange 256 none := by
  decide
/-- V-D2. -/
theorem test_zero_byte_is_illegal :
    after (ready 0 []) (fun t => t.status) = faulted .invalidInstruction 0 (some 0x00#8) := by decide
/-- V-D12: the opcode check comes before the length check. -/
theorem test_opcode_before_length :
    after (ready 254 [0xFF#8]) (fun t => t.status) = faulted .invalidInstruction 254 (some 0xFF#8) := by decide
/-- V-D4. -/
theorem test_bytes_past_memory :
    after (ready 254 [0x82#8]) (fun t => t.status) = faulted .operandOutOfRange 254 (some 0x82#8) := by decide
/-- V-D9. -/
theorem test_register_byte_not_masked : after (ready 0 [0xA0#8, 0x80#8, 0x00#8]) (fun t => (t.status, t.x)) =
    some (.faulted ⟨.operandOutOfRange, 0, some 0xA0#8⟩, State.reset.x) := by decide

/-! ### Single steps: 95_test_vectors.md sections 2.2 to 2.5 -/

/-- V-D13. -/
theorem test_ldi : after (ready 0 [0x82#8, 3#8, 0xFF#8]) (fun t => (t.reg 3, t.pc)) = some (0xFF#8, 3) := by decide
/-- V-M1. -/
theorem test_ldi_sp : after (ready 0 [0x82#8, 7#8, 0x10#8]) (fun t => (t.sp, t.pc)) = some (0x10#8, 3) := by decide
/-- V-M3. -/
theorem test_prn : after (ready 0 [0x47#8, 7#8]) (fun t => (t.console, t.pc)) = some ([244#8], 2) := by decide
/-- V-D6. -/
theorem test_hlt_at_255 : after (ready 255 [0x01#8]) (fun t => (t.status, t.pc)) = some (.halted, 255) := by decide
/-- V-S9: `PUSH R7` stores the decremented stack pointer. -/
theorem test_push_sp : after (ready 0 [0x45#8, 7#8]) (fun t => (t.sp, t.M.read 0xF3, t.pc)) =
    some (0xF3#8, 0xF3#8, 2) := by decide
/-- V-S3. -/
theorem test_push_overflow : after ((ready 0 [0x45#8, 2#8]).setSp 0#8) (fun t => t.status) =
    faulted .stackOverflow 0 (some 0x45#8) := by decide
/-- V-S10: `POP R7` leaves the popped byte plus one. -/
theorem test_pop_sp : after (State.poke ((ready 0 [0x46#8, 7#8]).setSp 0xF3#8) 0xF3 0x10#8) (fun t => (t.sp, t.pc)) =
    some (0x11#8, 2) := by decide
/-- V-S7. -/
theorem test_pop_at_254 : after (State.poke ((ready 0 [0x46#8, 1#8]).setSp 0xFE#8) 0xFE 0x11#8)
    (fun t => (t.reg 1, t.sp, t.pc)) = some (0x11#8, 0xFF#8, 2) := by decide
/-- V-C12: `CALL R7` jumps to the decremented stack pointer. -/
theorem test_call_sp : after (ready 0x10 [0x50#8, 7#8]) (fun t => (t.sp, t.M.read 0xF3, t.pc)) =
    some (0xF3#8, 0x12#8, 0xF3) := by decide
/-- V-C9. -/
theorem test_call_at_254 : after ((ready 0xFE [0x50#8, 1#8]).setReg 1 0x40#8) (fun t => (t.status, t.sp)) =
    some (.faulted ⟨.operandOutOfRange, 0xFE, some 0x50#8⟩, 0xF4#8) := by decide
/-- V-C13. -/
theorem test_ret : after (State.poke ((ready 0x40 [0x11#8]).setSp 0xF3#8) 0xF3 0x12#8) (fun t => (t.pc, t.sp)) =
    some (0x12, 0xF4#8) := by decide
/-- V-C15. -/
theorem test_ret_top : after ((ready 0x40 [0x11#8]).setSp 0xFF#8) (fun t => t.status) =
    faulted .stackUnderflow 0x40 (some 0x11#8) := by decide
/-- V-C3. -/
theorem test_jmp : after ((ready 0 [0x54#8, 1#8]).setReg 1 0xFF#8) (fun t => t.pc) = some 0xFF := by decide
/-- V-C5. -/
theorem test_jeq_not_taken : after ((ready 254 [0x55#8, 2#8]).setReg 2 0x30#8) (fun t => (t.pc, t.status)) =
    some (256, .running) := by decide
/-- W6. -/
theorem test_jeq_taken : after (((ready 0x10 [0x55#8, 2#8]).setReg 2 0x30#8).setFlags ⟨true, false, false⟩)
    (fun t => t.pc) = some 0x30 := by decide
/-- V-C4: `JNE` tests `E` alone. -/
theorem test_jne_taken : after (((ready 0 [0x56#8, 2#8]).setReg 2 0x30#8).setFlags ⟨false, true, false⟩)
    (fun t => t.pc) = some 0x30 := by decide
/-- W6. -/
theorem test_jne_not_taken : after (((ready 0x10 [0x56#8, 2#8]).setReg 2 0x30#8).setFlags ⟨true, false, false⟩)
    (fun t => t.pc) = some 0x12 := by decide
/-- V-A1. -/
theorem test_add_wraps : after (((ready 0 [0xA0#8, 0#8, 1#8]).setReg 0 255#8).setReg 1 2#8)
    (fun t => (t.reg 0, t.reg 1, t.pc)) = some (1#8, 2#8, 3) := by decide
/-- V-A3. -/
theorem test_add_sp : after ((ready 0 [0xA0#8, 7#8, 0#8]).setReg 0 0x0C#8) (fun t => t.sp) = some 0x00#8 := by decide
/-- V-A4. -/
theorem test_sub_wraps : after (((ready 0 [0xA1#8, 0#8, 1#8]).setReg 0 3#8).setReg 1 5#8)
    (fun t => (t.reg 0, t.pc)) = some (254#8, 3) := by decide
/-- V-A7. -/
theorem test_mul : after (((ready 0 [0xA2#8, 0#8, 1#8]).setReg 0 200#8).setReg 1 2#8)
    (fun t => (t.reg 0, t.pc)) = some (144#8, 3) := by decide
/-- V-A11: the comparison is unsigned. -/
theorem test_cmp_unsigned : after (((ready 0 [0xA7#8, 0#8, 1#8]).setReg 0 0x80#8).setReg 1 0x7F#8)
    (fun t => (t.FL, t.pc)) = some (⟨false, true, false⟩, 3) := by decide
/-- V-A12. -/
theorem test_cmp_clears : after (((ready 0 [0xA7#8, 4#8, 4#8]).setReg 4 9#8).setFlags ⟨false, false, true⟩)
    (fun t => t.FL) = some ⟨true, false, false⟩ := by decide
/-- V-A15. -/
theorem test_and : after (((ready 0 [0xA8#8, 0#8, 1#8]).setReg 0 0xF0#8).setReg 1 0x3C#8)
    (fun t => (t.reg 0, t.pc)) = some (0x30#8, 3) := by decide
/-- V-A16. -/
theorem test_or : after (((ready 0 [0xAA#8, 0#8, 1#8]).setReg 0 0xF0#8).setReg 1 0x0F#8)
    (fun t => (t.reg 0, t.pc)) = some (0xFF#8, 3) := by decide
/-- V-A18. -/
theorem test_xor : after (((ready 0 [0xAB#8, 0#8, 1#8]).setReg 0 0xF0#8).setReg 1 0x3C#8)
    (fun t => (t.reg 0, t.pc)) = some (0xCC#8, 3) := by decide
/-- V-A19. -/
theorem test_not : after ((ready 0 [0x69#8, 1#8, 0#8]).setReg 1 0x3C#8) (fun t => (t.reg 1, t.reg 0, t.pc)) =
    some (0xC3#8, 0x00#8, 3) := by decide
/-- V-D10. -/
theorem test_not_checks_unused : after (ready 0 [0x69#8, 1#8, 9#8]) (fun t => t.status) =
    faulted .operandOutOfRange 0 (some 0x69#8) := by decide
/-- V-A22. -/
theorem test_shl_by_8 : after (((ready 0 [0xAC#8, 0#8, 1#8]).setReg 0 1#8).setReg 1 8#8) (fun t => t.reg 0) =
    some 0#8 := by decide
/-- V-A26. -/
theorem test_shl_by_itself : after ((ready 0 [0xAC#8, 2#8, 2#8]).setReg 2 3#8) (fun t => (t.reg 2, t.pc)) =
    some (0x18#8, 3) := by decide

/-! ### The host's side -/

/-- R30: bit 0 = E, bit 1 = G, bit 2 = L. -/
theorem test_flag_byte : Flags.toByte ⟨true, false, false⟩ = 0x01#8 ∧ Flags.toByte ⟨false, true, false⟩ = 0x02#8 ∧
    Flags.toByte ⟨false, false, true⟩ = 0x04#8 := by decide
/-- V-M4 and R191: 0 prints `0`, 255 prints `255`, each with a line feed. -/
theorem test_console_text : consoleLine 0#8 = ['0', '\n'] ∧ consoleLine 255#8 = ['2', '5', '5', '\n'] := by decide
/-- R170. -/
theorem test_fault_codes : List.map FaultKind.code [.invalidInstruction, .operandOutOfRange, .stackOverflow,
    .stackUnderflow] = [1, 2, 3, 4] := by decide
/-- R187: a core that ended by `HLT` is neither started nor loaded again; it is reset first. -/
theorem test_halted_waits_for_reset :
    hostStart (Session.initial.afterAll [.load [0x01#8], .start, .step]) = none ∧
    hostLoad [0x11#8] (Session.initial.afterAll [.load [0x01#8], .start, .step]) = none ∧
    Session.initial.afterAll [.load [0x01#8], .start, .step, .reset] = Session.initial := by decide
/-- R190: no start before a load. -/
theorem test_start_needs_load : hostStart Session.initial = none := by decide
/-- R203: the empty image fails to load. -/
theorem test_empty_image : boot [] = none ∧ (boot [0x01#8]).map (fun s => (s.status, s.M)) =
    some (.running, [(0, 0x01#8)]) := by decide

/-! ### Witnesses: states and operands that meet the hypotheses of the statements -/

theorem witness_DecodeOfEncode : (Instr.add 7 0).WellFormed ∧ (Instr.ldi 7 255).WellFormed := ⟨rfl, rfl⟩

theorem witness_DecodedBytesAreTheEncoding : decode [0x82#8, 7#8, 0xFF#8, 0x01#8] = .ok (.ldi 7 0xFF, [0x01#8]) := rfl

theorem witness_LengthFromOpcodeAlone :
    (decode (0x82#8 :: [7#8, 0#8]) = .ok (.ldi 7 0, []) ∧ decode (0x82#8 :: [0#8, 1#8, 2#8]) = .ok (.ldi 0 1, [2#8])) ∧
    ((Instr.ldi 7 1).kind = .sequential ∧ (ready 253 []).status = .running ∧
      ∃ t, exec (.ldi 7 1) (ready 253 []) = .next t ∧ t.status = .running) ∧
    (encode (.prn 0) = 0x47#8 :: [0#8] ∧ ∀ a b, Instr.prn 0 ≠ .not a b) ∧
    (encode (.not 1 2) = 0x69#8 :: [1#8, 2#8] ∧ ∃ a b, Instr.not 1 2 = .not a b) :=
  ⟨⟨rfl, rfl⟩, ⟨rfl, rfl, _, rfl, rfl⟩, ⟨rfl, by simp⟩, rfl, _, _, rfl⟩

theorem witness_OpcodeBitFields : encode .ret = 0x11#8 :: [] ∧ (∀ a b, Instr.ret ≠ .not a b) := ⟨rfl, by simp⟩

theorem witness_NineteenOpcodes : ¬∃ bs i rest, decode (0x00#8 :: bs) = .ok (i, rest) := by
  rintro ⟨bs, i, rest, h⟩
  rw [decode_unknown rfl] at h
  cases h

theorem witness_TableWordIsRunNext : (Instr.shl 7 7).WellFormed := rfl

theorem witness_StepRunsTheDecodedInstruction :
    ((Instr.ldi 7 255).WellFormed ∧ Placed (.ldi 7 255) (ready 253 [0x82#8, 7#8, 255#8])) ∧
    (Instr.hlt.WellFormed ∧ Placed .hlt (ready 255 [0x01#8])) :=
  ⟨⟨rfl, rfl, by decide, by decide⟩, rfl, rfl, by decide, by decide⟩

theorem witness_InvalidInstructionByOpcodeOnly :
    ((ready 255 [0xFF#8]).status = .running ∧ (ready 255 [0xFF#8]).pc < 256 ∧
      lookupOp ((ready 255 [0xFF#8]).M.read 255) = none) ∧
    ∃ t r, exec (.push 2) ((ready 0 []).setSp 0#8) = .next t ∧ t.status = .faulted r :=
  ⟨⟨rfl, by decide, rfl⟩, _, _, rfl, rfl⟩

theorem witness_FetchFaultsInOrder :
    ((ready 256 []).status = .running ∧ 256 ≤ (ready 256 []).pc) ∧
    (lookupOp ((ready 254 [0xFF#8]).M.read 254) = none) ∧
    (some ((ready 254 [0x82#8]).M.read 254) = (encode (.ldi 0 0)).head? ∧
      256 < (ready 254 [0x82#8]).pc + (encode (.ldi 0 0)).length) ∧
    (¬(Instr.add 0 8).WellFormed ∧ Placed (.add 0 8) (ready 253 [0xA0#8, 0#8, 8#8])) :=
  ⟨⟨rfl, by decide⟩, rfl, ⟨by decide, by decide⟩, by decide, rfl, by decide, by decide⟩

theorem witness_OperandOutOfRangeExactly :
    (∃ t, (ready 256 []).pc ≤ 256 ∧ step (ready 256 []) = .next t) ∧
    (∃ t, (ready 254 [0x82#8]).pc ≤ 256 ∧ step (ready 254 [0x82#8]) = .next t) ∧
    (∃ t, step (ready 0 [0x47#8, 9#8]) = .next t ∧ Placed (.prn 9) (ready 0 [0x47#8, 9#8])) ∧
    (∃ t, step (ready 254 [0x50#8, 1#8]) = .next t ∧ Placed (.call 1) (ready 254 [0x50#8, 1#8])) :=
  ⟨⟨_, by decide, rfl⟩, ⟨_, by decide, rfl⟩, ⟨_, rfl, rfl, by decide, by decide⟩, _, rfl, rfl, by decide, by decide⟩

theorem witness_StackFaultsExactly :
    Placed (.push 0) ((ready 0 [0x45#8, 0#8]).setSp 0#8) ∧
    (Placed (.call 7) ((ready 253 [0x50#8, 7#8]).setSp 0#8) ∧ ((ready 253 [0x50#8, 7#8]).setSp 0#8).pc ≠ 254) ∧
    (Placed .ret (ready 255 [0x11#8]) ∧ (ready 255 [0x11#8]).sp = 0xF4#8) ∧
    (Placed (.pop 0) ((ready 254 [0x46#8, 0#8]).setSp 0xFF#8)) ∧
    (Placed (.pop 7) (State.poke ((ready 0 [0x46#8, 7#8]).setSp 0xF3#8) 0xF3 0xFF#8)) :=
  ⟨⟨rfl, by decide, by decide⟩, ⟨⟨rfl, by decide, by decide⟩, by decide⟩, ⟨⟨rfl, by decide, by decide⟩, by decide⟩,
    ⟨rfl, by decide, by decide⟩, rfl, by decide, by decide⟩

theorem witness_FaultsArePrecise : ∃ t r, (ready 0 [0x11#8]).status = .running ∧ step (ready 0 [0x11#8]) = .next t ∧
    t.status = .faulted r := ⟨_, _, rfl, rfl, rfl⟩

theorem witness_StoppedCoreStays : State.reset.status ≠ .running ∧
    ((ready 0 []).raise .invalidInstruction).status ≠ .running := by decide

theorem witness_HaltedEndIsAtHlt : ∃ t, step (ready 255 [0x01#8]) = .next t ∧ t.status = .halted := ⟨_, rfl, rfl⟩

theorem witness_StepKeepsInvariant : (ready 253 [0x82#8, 0#8, 1#8]).Inv ∧
    ∃ t, step (ready 253 [0x82#8, 0#8, 1#8]) = .next t ∧ t.pc = 256 :=
  ⟨⟨by decide, by decide, by simp [Flags.atMostOne, ready, State.reset], by intro r h; simp [ready] at h⟩, _, rfl, rfl⟩

theorem witness_ConsoleOnlyGrows : ∃ t, Sys2Proof.core.run 1 (ready 0 [0x47#8, 7#8]) = .next t := ⟨_, rfl⟩

theorem witness_SafeStepExactly : (ready 253 []).status = .running ∧ (Instr.call 7).WellFormed ∧
    Placed (.call 7) (ready 253 [0x50#8, 7#8]) ∧ (ready 253 [0x50#8, 7#8]).MayComplete (.call 7) ∧
    ¬(ready 254 []).MayComplete (.call 7) :=
  ⟨rfl, rfl, ⟨rfl, by decide, by decide⟩, ⟨by decide, by decide⟩, fun h => absurd h.1 (by decide)⟩

theorem witness_FlagsWrittenByCmpReadByJumps :
    (∃ t, exec (.add 0 1) (ready 0 []) = .next t) ∧ (∀ a b, Instr.add 0 1 ≠ .cmp a b) ∧
    (∃ t, exec (.jeq 0) (ready 0 []) = .next t) ∧ (⟨false, true, true⟩ : Flags).E = (ready 0 []).FL.E ∧
    (∃ t, exec (.cmp 7 0) (ready 0 []) = .next t) ∧ (∃ t, exec (.cmp 7 8) (ready 0 []) = .next t) ∧
    (ready 0 []).x[(1#8).toNat].toNat ≠ (ready 0 []).pc + 2 :=
  ⟨⟨_, rfl⟩, by simp, ⟨_, rfl⟩, rfl, ⟨_, rfl⟩, ⟨_, rfl⟩, by decide⟩

theorem witness_ConsoleWrittenByPrnReadByNone : (∃ t, exec (.prn 7) (ready 0 []) = .next t) ∧
    (∃ t, exec (.prn 8) (ready 0 []) = .next t) ∧ (∀ a : Byte, a.toNat < 8 → Instr.prn 8 ≠ .prn a) :=
  ⟨⟨_, rfl⟩, ⟨_, rfl⟩, by intro a h e; cases e; exact absurd h (by decide)⟩

theorem witness_OnlyPushAndCallStore : (∃ t, exec (.pop 0) ((ready 0 []).setSp 0x10#8) = .next t) ∧
    (∃ t, exec (.push 0) ((ready 0 []).setSp 1#8) = .next t ∧ 1 ≠ (((ready 0 []).setSp 1#8).sp - 1#8).toNat) :=
  ⟨⟨_, rfl⟩, _, rfl, by decide⟩

theorem witness_OnlyPopAndRetLoad : (∃ t, exec (.push 0) (ready 0 []) = .next t) ∧ (∀ a, Instr.push 0 ≠ .pop a) ∧
    opcodeAt { ready 0 [] with M := [(0xF3, 9#8)] } = opcodeAt (ready 0 []) := ⟨⟨_, rfl⟩, by simp, by decide⟩

theorem witness_OtherRegistersKept : (∃ t, exec (.pop 6) ((ready 0 []).setSp 0#8) = .next t) ∧ ¬MayWrite (.pop 6) 5 :=
  ⟨⟨_, rfl⟩, by simp [MayWrite]⟩

theorem witness_StatusChangesByHltOrFault : ∃ t, exec (.pop 0) (ready 0 []) = .next t ∧ t.status ≠ .running :=
  ⟨_, rfl, by decide⟩

theorem witness_PcByWidthOrToTarget :
    (∃ t, exec (.shl 0 1) (ready 253 []) = .next t ∧ ∀ r, t.status ≠ .faulted r) ∧
    (∃ t, exec .hlt (ready 255 []) = .next t ∧ ∀ r, t.status ≠ .faulted r) ∧
    (∃ t, exec (.jeq 0) (ready 254 []) = .next t ∧ t.pc = 256 ∧ ∀ r, t.status ≠ .faulted r) :=
  ⟨⟨_, rfl, by intro r h; cases h⟩, ⟨_, rfl, by intro r h; cases h⟩, _, rfl, rfl, by intro r h; cases h⟩

theorem witness_registerOperands : (7#8).toNat < 8 ∧ (0#8).toNat < 8 ∧ ¬(8#8).toNat < 8 := by decide

theorem witness_HaltStops : (ready 255 [0x01#8]).status = .running ∧ (ready 255 [0x01#8]).pc < 256 ∧
    (ready 255 [0x01#8]).M.read (ready 255 [0x01#8]).pc = 0x01#8 := by decide

theorem witness_PushRegister : ((ready 0 []).setSp 0#8).sp = 0x00#8 ∧ ((ready 0 []).setSp 1#8).sp ≠ 0x00#8 := by decide

theorem witness_PopRegister : (ready 0 []).sp = 0xF4#8 ∧
    (((ready 0 []).setSp 0xF3#8).sp ≠ 0xF4#8 ∧ ((ready 0 []).setSp 0xFE#8).sp ≠ 0xFF#8 ∧ (6#8).toNat ≠ 7) ∧
    ((7#8).toNat = 7 ∧ (State.poke ((ready 0 []).setSp 0xF3#8) 0xF3 0xFE#8).M.read 0xF3 ≠ 0xFF#8) ∧
    (State.poke ((ready 0 []).setSp 0xF3#8) 0xF3 0xFF#8).M.read 0xF3 = 0xFF#8 := by decide

theorem witness_CallSubroutine : 255 < (ready 254 []).pc + 2 ∧
    ((ready 253 []).pc + 2 ≤ 255 ∧ ((ready 253 []).setSp 0#8).sp = 0x00#8) ∧ (ready 253 []).sp ≠ 0x00#8 := by decide

theorem witness_ReturnFromSubroutine : (ready 0 []).sp = 0xF4#8 ∧ ((ready 0 []).setSp 0xFE#8).sp ≠ 0xF4#8 ∧
    ((ready 0 []).setSp 0xFE#8).sp ≠ 0xFF#8 := by decide

theorem witness_AluResultsModulo256 : ∃ p ∈ ([(Instr.add, 0xA0#8, fun A B => A + B)] :
    List ((Byte → Byte → Instr) × Byte × (Nat → Nat → Nat))), p.1 7 7 = .add 7 7 :=
  ⟨(Instr.add, 0xA0#8, fun A B => A + B), List.mem_cons_self .., rfl⟩

theorem witness_SubNotShlResults : 8 ≤ ((ready 0 []).setReg 1 8#8).x[(1#8).toNat].toNat := by decide

/-- `PushThenPop`: a stack pointer for each clause, and the register pairs that are or are not `R7`. -/
theorem witness_PushThenPop : ((ready 0 []).setSp 0#8).sp = 0x00#8 ∧
    (((ready 0 []).setSp 0xF5#8).sp ≠ 0x00#8 ∧ ((ready 0 []).setSp 0xF5#8).sp = 0xF5#8) ∧
    (((ready 0 []).setSp 1#8).sp ≠ 0x00#8 ∧ ((ready 0 []).setSp 1#8).sp ≠ 0xF5#8) ∧ (0#8).toNat ≠ 7 ∧ (7#8).toNat = 7 ∧
    ((ready 0 []).setReg 0 0xFF#8).x[(0#8).toNat] = 0xFF#8 ∧ (ready 0 []).x[(0#8).toNat] ≠ 0xFF#8 := by decide

theorem witness_CallThenReturn : (ready 253 []).pc ≤ 253 ∧ (ready 253 []).sp ≠ 0x00#8 ∧ (ready 253 []).sp ≠ 0xF5#8 := by
  decide

/-- Program P5's push: it stores right behind itself; the stored 1 is `HLT`, a stored 0 is no opcode. -/
theorem witness_PushedByteIsFetched :
    Placed (.push 0) (((ready 6 [0x45#8, 0#8]).setSp 9#8).setReg 0 1#8) ∧
    (((ready 6 [0x45#8, 0#8]).setSp 9#8).sp - 1#8).toNat = (ready 6 [0x45#8, 0#8]).pc + 2 ∧
    ((ready 6 [0x45#8, 0#8]).setSp 9#8).sp ≠ 0x00#8 ∧ lookupOp 0x00#8 = none :=
  ⟨⟨rfl, by decide, by decide⟩, by decide, by decide, rfl⟩

theorem witness_MemoryAccess : 255 < 256 ∧ 256 ≤ 256 := by decide

theorem witness_ResetSetsEveryElement : Session.core ⟨ready 0 [], .started⟩ = ready 0 [] ∧
    (ready 0 []).status = .running ∧ (ready 0 []).halt.status ≠ .running := by decide

theorem witness_BootRunsTheImage : 1 ≤ [0x01#8].length ∧ (List.replicate 256 0x01#8).length ≤ 256 ∧
    256 < (List.replicate 257 0x01#8).length ∧ ([] : List Byte).length = 0 :=
  ⟨by decide, by rw [List.length_replicate], by rw [List.length_replicate]; decide, rfl⟩

/-- Ended by `HLT`, and ended by a fault. -/
theorem witness_EndedRunWaitsForReset : (ready 0 []).halt.status ≠ .running ∧
    ((ready 0 []).raise .stackOverflow).status ≠ .running ∧
    SessionEvent.reset ∉ [.load [0x01#8], .start, .step] := by decide

/-- A session in each phase. -/
theorem witness_HostOperationsInOrder : (Session.initial.afterAll [.start, .load []]).phase = .afterReset ∧
    (Session.initial.afterAll [.load [0x01#8]]).phase = .loaded ∧
    (Session.initial.afterAll [.load [0x01#8], .start]).core.status = .running ∧
    (Session.initial.afterAll [.load [0x01#8], .start, .step]).core.status = .halted := by decide

end Sys2Proof.Tests
end

section
/-! What decoded bytes say about the instruction at `pc`. -/

namespace Sys2Proof

/-- Bytes that decode are the encoding of a well-formed instruction, followed by the bytes the decoder left. -/
theorem decode_eq_ok {bs rest : List Byte} {i : Instr} (h : decode bs = .ok (i, rest)) :
    i.WellFormed ∧ bs = encode i ++ rest := by
  cases bs with
  | nil => cases h
  | cons op bs =>
    cases hl : lookupOp op with
    | none => rw [decode_unknown hl] at h; cases h
    | some shape =>
      obtain ⟨j, rfl, rfl⟩ := lookupOp_cases hl
      rw [decode_opcode] at h
      rcases decodeOperands_ok h with ⟨hs, rfl⟩ | ⟨_, b1, hs, hb, rfl, rfl⟩ | ⟨_, b1, b2, hs, hb, rfl, rfl⟩ |
        ⟨_, b1, b2, hs, hb, hb', rfl, rfl⟩
      · cases j <;> cases hs <;> exact ⟨rfl, rfl⟩
      · cases j <;> cases hs <;> exact ⟨(isRegByte_iff b1).2 hb, rfl⟩
      · cases j <;> cases hs
        exact ⟨(isRegByte_iff b1).2 hb, rfl⟩
      · cases j <;> cases hs <;> exact ⟨(isRegByte_and b1 b2).2 ⟨hb, hb'⟩, rfl⟩

namespace Machine

/-- An instruction that is fetched and decoded ends inside memory: the fetch reads no byte past address 255. -/
theorem State.pc_add_width_le {s : State} {i : Instr} {rest : List Byte} (h : decode s.fetch = .ok (i, rest)) :
    s.pc + i.width ≤ Config.memSize := by
  obtain ⟨-, hbytes⟩ := decode_eq_ok h
  have hlen : i.width ≤ s.fetch.length := by simp [hbytes, Instr.width]
  have hpos := (width_pos i).1
  by_cases hpc : s.pc < 256
  · have hop : s.M.read s.pc = i.opcode := by
      have hhead : s.fetch.head? = some (s.M.read s.pc) := by
        cases hl : lookupOp (s.M.read s.pc) with
        | none => simp [State.fetch_unknown hpc hl]
        | some shape => cases shape <;> simp [State.fetch_known hpc hl, Shape.width, Memory.window, hpc]
      rw [hbytes, encode_cons] at hhead
      simpa using hhead.symm
    have hknown : lookupOp (s.M.read s.pc) = some i.shape := by rw [hop, lookupOp_opcode]
    rw [State.fetch_known hpc hknown, Memory.length_window] at hlen
    simp only [Config.memSize]
    omega
  · simp only [State.fetch_past hpc, List.length_nil] at hlen
    omega

end Machine
end Sys2Proof
end

section
/-! What an instruction can answer, for all nineteen at once: the state in which it completes, or the fault it raises.
The frames and invariants below are case splits over these two relations. -/

namespace Sys2Proof.Machine

variable {s t : State} {i : Instr}

/-- The instructions of the ALU contract (R140) with their result: all ALU instructions but `CMP`. -/
inductive IsAlu : (RegByte → RegByte → Instr) → (Byte → Byte → Byte) → Prop
  | add : IsAlu .add aluAdd
  | sub : IsAlu .sub aluSub
  | mul : IsAlu .mul aluMul
  | and : IsAlu .and aluAnd
  | or : IsAlu .or aluOr
  | xor : IsAlu .xor aluXor
  | not : IsAlu .not aluNot
  | shl : IsAlu .shl aluShl

section Alu

variable {make : RegByte → RegByte → Instr} {f : Byte → Byte → Byte} (h : IsAlu make f) (a b : RegByte)
include h

theorem IsAlu.exec_eq (s : State) : exec (make a b) s = commit s (aluOp f a b s) := by cases h <;> rfl
theorem IsAlu.wellFormed_iff : (make a b).WellFormed ↔ a.toNat < 8 ∧ b.toNat < 8 := by cases h <;> simp
theorem IsAlu.kind_eq : (make a b).kind = .sequential := by cases h <;> rfl
theorem IsAlu.width_eq : (make a b).width = 3 := by cases h <;> rfl
theorem IsAlu.mayWrite_iff (r : Reg) : Claims.MayWrite (make a b) r ↔ a.toNat = r.val := by cases h <;> rfl
theorem IsAlu.ne_hlt : make a b ≠ .hlt := by cases h <;> simp

end Alu

/-- `Completes s i t`: instruction `i`, run in `s`, raises no fault and leaves `t`. -/
inductive Completes (s : State) : Instr → State → Prop
  | ldi {a : RegByte} {imm : Byte} (ha : a.toNat < 8) :
      Completes s (.ldi a imm) ((s.setReg ⟨a.toNat, ha⟩ imm).advance 3)
  | prn {a : RegByte} (ha : a.toNat < 8) :
      Completes s (.prn a) ((s.consoleOut (s.reg ⟨a.toNat, ha⟩)).advance 2)
  | hlt : Completes s .hlt s.halt
  | push {a : RegByte} (ha : a.toNat < 8) (hsp : s.sp ≠ 0#8) :
      Completes s (.push a) ((s.pushed ((s.setSp (s.sp - 1#8)).reg ⟨a.toNat, ha⟩)).advance 2)
  | pop {a : RegByte} (ha : a.toNat < 8) (hsp : ¬(s.sp = Config.spInit ∨ s.sp = 0xFF#8))
      (htop : (s.setReg ⟨a.toNat, ha⟩ (s.M.read s.sp.toNat)).sp.toNat ≠ 255) :
      Completes s (.pop a) (((s.setReg ⟨a.toNat, ha⟩ (s.M.read s.sp.toNat)).setSp
        ((s.setReg ⟨a.toNat, ha⟩ (s.M.read s.sp.toNat)).sp + 1#8)).advance 2)
  | call {a : RegByte} (ha : a.toNat < 8) (hpc : s.pc + 2 ≤ 255) (hsp : s.sp ≠ 0#8) :
      Completes s (.call a)
        ((s.pushed (BitVec.ofNat 8 (s.pc + 2))).jump ((s.setSp (s.sp - 1#8)).reg ⟨a.toNat, ha⟩))
  | ret (hsp : ¬(s.sp = Config.spInit ∨ s.sp = 0xFF#8)) :
      Completes s .ret ((s.jump (s.M.read s.sp.toNat)).setSp (s.sp + 1#8))
  | jmp {a : RegByte} (ha : a.toNat < 8) : Completes s (.jmp a) (s.jump (s.reg ⟨a.toNat, ha⟩))
  | jeq {a : RegByte} (ha : a.toNat < 8) :
      Completes s (.jeq a) (if s.FL.E then s.jump (s.reg ⟨a.toNat, ha⟩) else s.advance 2)
  | jne {a : RegByte} (ha : a.toNat < 8) :
      Completes s (.jne a) (if !s.FL.E then s.jump (s.reg ⟨a.toNat, ha⟩) else s.advance 2)
  | cmp {a b : RegByte} (ha : a.toNat < 8) (hb : b.toNat < 8) :
      Completes s (.cmp a b)
        ((s.setFlags (compareFlags (s.reg ⟨a.toNat, ha⟩) (s.reg ⟨b.toNat, hb⟩))).advance 3)
  | alu {make : RegByte → RegByte → Instr} {f : Byte → Byte → Byte} (hm : IsAlu make f) {a b : RegByte}
      (ha : a.toNat < 8) (hb : b.toNat < 8) :
      Completes s (make a b)
        ((s.setReg ⟨a.toNat, ha⟩ (f (s.reg ⟨a.toNat, ha⟩) (s.reg ⟨b.toNat, hb⟩))).advance 3)

/-- `Raises s i k`: instruction `i`, run in `s`, raises fault `k`: for a register byte above 7, or by a condition of
its own (R172 to R174). -/
inductive Raises (s : State) : Instr → FaultKind → Prop
  | illFormed {i : Instr} (h : ¬i.WellFormed) : Raises s i .operandOutOfRange
  | push {a : RegByte} (ha : a.toNat < 8) (hsp : s.sp = 0#8) : Raises s (.push a) .stackOverflow
  | pop {a : RegByte} (ha : a.toNat < 8) (h : (s.sp = Config.spInit ∨ s.sp = 0xFF#8) ∨
      (s.setReg ⟨a.toNat, ha⟩ (s.M.read s.sp.toNat)).sp.toNat = 255) : Raises s (.pop a) .stackUnderflow
  | callAddress {a : RegByte} (hpc : ¬s.pc + 2 ≤ 255) : Raises s (.call a) .operandOutOfRange
  | callStack {a : RegByte} (ha : a.toNat < 8) (hpc : s.pc + 2 ≤ 255) (hsp : s.sp = 0#8) :
      Raises s (.call a) .stackOverflow
  | ret (hsp : s.sp = Config.spInit ∨ s.sp = 0xFF#8) : Raises s .ret .stackUnderflow

/-- `t` is how `i` ends in `s`: it completes there, or `t` is `s` with a fault of `i` taken. -/
def EndsIn (s : State) (i : Instr) (t : State) : Prop :=
  Completes s i t ∨ ∃ k, Raises s i k ∧ t = s.raise k

theorem Completes.endsIn (h : Completes s i t) : EndsIn s i t := .inl h

theorem Raises.endsIn {k : FaultKind} (h : Raises s i k) : EndsIn s i (s.raise k) := .inr ⟨k, h, rfl⟩

theorem IsAlu.endsIn_of_exec {make : RegByte → RegByte → Instr} {f : Byte → Byte → Byte} {a b : RegByte}
    (hm : IsAlu make f) (h : exec (make a b) s = .next t) : EndsIn s (make a b) t := by
  rw [hm.exec_eq, aluOp_next] at h
  obtain ⟨ha, hb, rfl⟩ | ⟨hbad, rfl⟩ := h
  · exact (Completes.alu hm ha hb).endsIn
  · exact (Raises.illFormed (mt (hm.wellFormed_iff a b).1 hbad)).endsIn

/-- What `exec` answers is a completion or a fault of the instruction. -/
theorem endsIn_of_exec (h : exec i s = .next t) : EndsIn s i t := by
  cases i with
  | ldi a imm =>
    obtain ⟨ha, rfl⟩ | ⟨hbad, rfl⟩ := execLdi_next.1 h
    · exact (Completes.ldi ha).endsIn
    · exact (Raises.illFormed (by simpa using hbad)).endsIn
  | prn a =>
    obtain ⟨ha, rfl⟩ | ⟨hbad, rfl⟩ := execPrn_next.1 h
    · exact (Completes.prn ha).endsIn
    · exact (Raises.illFormed (by simpa using hbad)).endsIn
  | hlt =>
    obtain rfl := execHlt_next.1 h
    exact Completes.hlt.endsIn
  | push a =>
    obtain ⟨ha, hsp, rfl⟩ | ⟨ha, hsp, rfl⟩ | ⟨hbad, rfl⟩ := execPush_next.1 h
    · exact (Completes.push ha hsp).endsIn
    · exact (Raises.push ha hsp).endsIn
    · exact (Raises.illFormed (by simpa using hbad)).endsIn
  | pop a =>
    obtain ⟨ha, hsp, htop, rfl⟩ | ⟨ha, hfault, rfl⟩ | ⟨hbad, rfl⟩ := execPop_next.1 h
    · exact (Completes.pop ha hsp htop).endsIn
    · exact (Raises.pop ha hfault).endsIn
    · exact (Raises.illFormed (by simpa using hbad)).endsIn
  | call a =>
    obtain ⟨ha, hpc, hsp, rfl⟩ | ⟨ha, hpc, hsp, rfl⟩ | ⟨hbad, rfl⟩ := execCall_next.1 h
    · exact (Completes.call ha hpc hsp).endsIn
    · exact (Raises.callStack ha hpc hsp).endsIn
    · by_cases hpc : s.pc + 2 ≤ 255
      · exact (Raises.illFormed (by simpa [hpc] using hbad)).endsIn
      · exact (Raises.callAddress hpc).endsIn
  | ret =>
    obtain ⟨hsp, rfl⟩ | ⟨hsp, rfl⟩ := execRet_next.1 h
    · exact (Completes.ret hsp).endsIn
    · exact (Raises.ret hsp).endsIn
  | jmp a =>
    obtain ⟨ha, rfl⟩ | ⟨hbad, rfl⟩ := execJmp_next.1 h
    · exact (Completes.jmp ha).endsIn
    · exact (Raises.illFormed (by simpa using hbad)).endsIn
  | jeq a =>
    obtain ⟨ha, rfl⟩ | ⟨hbad, rfl⟩ := (jumpIf_next _).1 h
    · exact (Completes.jeq ha).endsIn
    · exact (Raises.illFormed (by simpa using hbad)).endsIn
  | jne a =>
    obtain ⟨ha, rfl⟩ | ⟨hbad, rfl⟩ := (jumpIf_next _).1 h
    · exact (Completes.jne ha).endsIn
    · exact (Raises.illFormed (by simpa using hbad)).endsIn
  | cmp a b =>
    obtain ⟨ha, hb, rfl⟩ | ⟨hbad, rfl⟩ := execCmp_next.1 h
    · exact (Completes.cmp ha hb).endsIn
    · exact (Raises.illFormed (by simpa using hbad)).endsIn
  | add => exact IsAlu.add.endsIn_of_exec h
  | sub => exact IsAlu.sub.endsIn_of_exec h
  | mul => exact IsAlu.mul.endsIn_of_exec h
  | and => exact IsAlu.and.endsIn_of_exec h
  | or => exact IsAlu.or.endsIn_of_exec h
  | xor => exact IsAlu.xor.endsIn_of_exec h
  | not => exact IsAlu.not.endsIn_of_exec h
  | shl => exact IsAlu.shl.endsIn_of_exec h

theorem Completes.exec_eq (h : Completes s i t) : exec i s = .next t := by
  cases h with
  | ldi ha => exact execLdi_next.2 (.inl ⟨ha, rfl⟩)
  | prn ha => exact execPrn_next.2 (.inl ⟨ha, rfl⟩)
  | hlt => exact execHlt_next.2 rfl
  | push ha hsp => exact execPush_next.2 (.inl ⟨ha, hsp, rfl⟩)
  | pop ha hsp htop => exact execPop_next.2 (.inl ⟨ha, hsp, htop, rfl⟩)
  | call ha hpc hsp => exact execCall_next.2 (.inl ⟨ha, hpc, hsp, rfl⟩)
  | ret hsp => exact execRet_next.2 (.inl ⟨hsp, rfl⟩)
  | jmp ha => exact execJmp_next.2 (.inl ⟨ha, rfl⟩)
  | jeq ha => exact (jumpIf_next _).2 (.inl ⟨ha, rfl⟩)
  | jne ha => exact (jumpIf_next _).2 (.inl ⟨ha, rfl⟩)
  | cmp ha hb => exact execCmp_next.2 (.inl ⟨ha, hb, rfl⟩)
  | alu hm ha hb => exact (hm.exec_eq ..).trans ((aluOp_next _).2 (.inl ⟨ha, hb, rfl⟩))

theorem IsAlu.exec_illFormed {make : RegByte → RegByte → Instr} {f : Byte → Byte → Byte} {a b : RegByte}
    (hm : IsAlu make f) (h : ¬(make a b).WellFormed) :
    exec (make a b) s = .next (s.raise .operandOutOfRange) :=
  (hm.exec_eq a b s).trans ((aluOp_next f).2 (.inr ⟨mt (hm.wellFormed_iff a b).2 h, rfl⟩))

/-- An instruction with a register byte above 7 raises `OperandOutOfRange` (R74, log entry 31). -/
theorem exec_illFormed (h : ¬i.WellFormed) : exec i s = .next (s.raise .operandOutOfRange) := by
  cases i with
  | ldi => exact execLdi_next.2 (.inr ⟨by simpa using h, rfl⟩)
  | prn => exact execPrn_next.2 (.inr ⟨by simpa using h, rfl⟩)
  | hlt => exact absurd rfl h
  | push => exact execPush_next.2 (.inr (.inr ⟨by simpa using h, rfl⟩))
  | pop => exact execPop_next.2 (.inr (.inr ⟨by simpa using h, rfl⟩))
  | call => exact execCall_next.2 (.inr (.inr ⟨fun hok => h ((Instr.wellFormed_call _).2 hok.1), rfl⟩))
  | ret => exact absurd rfl h
  | jmp => exact execJmp_next.2 (.inr ⟨by simpa using h, rfl⟩)
  | jeq => exact (jumpIf_next _).2 (.inr ⟨by simpa using h, rfl⟩)
  | jne => exact (jumpIf_next _).2 (.inr ⟨by simpa using h, rfl⟩)
  | cmp a b => exact execCmp_next.2 (.inr ⟨mt (Instr.wellFormed_cmp a b).2 h, rfl⟩)
  | add => exact IsAlu.add.exec_illFormed h
  | sub => exact IsAlu.sub.exec_illFormed h
  | mul => exact IsAlu.mul.exec_illFormed h
  | and => exact IsAlu.and.exec_illFormed h
  | or => exact IsAlu.or.exec_illFormed h
  | xor => exact IsAlu.xor.exec_illFormed h
  | not => exact IsAlu.not.exec_illFormed h
  | shl => exact IsAlu.shl.exec_illFormed h

theorem Raises.exec_eq {k : FaultKind} (h : Raises s i k) : exec i s = .next (s.raise k) := by
  cases h with
  | illFormed h => exact exec_illFormed h
  | push ha hsp => exact execPush_next.2 (.inr (.inl ⟨ha, hsp, rfl⟩))
  | pop ha h => exact execPop_next.2 (.inr (.inl ⟨ha, h, rfl⟩))
  | callAddress hpc => exact execCall_next.2 (.inr (.inr ⟨fun hok => hpc hok.2, rfl⟩))
  | callStack ha hpc hsp => exact execCall_next.2 (.inr (.inl ⟨ha, hpc, hsp, rfl⟩))
  | ret hsp => exact execRet_next.2 (.inr ⟨hsp, rfl⟩)

/-- `exec`, said once for all nineteen instructions. -/
theorem exec_eq_next : exec i s = .next t ↔ EndsIn s i t := by
  refine ⟨endsIn_of_exec, ?_⟩
  rintro (hc | ⟨k, hr, rfl⟩)
  · exact hc.exec_eq
  · exact hr.exec_eq

end Sys2Proof.Machine
end

section
/-! What an instruction that completes changes and what it keeps, field by field. -/

namespace Sys2Proof.Machine

variable {s t : State} {i : Instr}

/-- The status, and for `HLT` the whole next state (R102, R177). -/
theorem Completes.status_cases (h : Completes s i t) :
    (t.status = s.status ∧ i ≠ .hlt) ∨ (i = .hlt ∧ t = s.halt) := by
  cases h with
  | hlt => exact .inr ⟨rfl, rfl⟩
  | jeq | jne => left; split <;> simp
  | alu hm => exact .inl ⟨rfl, hm.ne_hlt _ _⟩
  | _ => exact .inl ⟨rfl, by simp⟩

/-- The program counter, class by class (R84, R120). -/
theorem Completes.pc_cases (h : Completes s i t) :
    (i.kind = .sequential ∧ t.pc = s.pc + i.width) ∨
      (i.kind = .terminal ∧ t.pc = s.pc) ∨
      (i.kind = .controlTransfer ∧ (t.pc < 256 ∨ (t.pc = s.pc + 2 ∧ ∃ a, i = .jeq a ∨ i = .jne a))) := by
  cases h with
  | hlt => exact .inr (.inl ⟨rfl, rfl⟩)
  | call | ret | jmp => exact .inr (.inr ⟨rfl, .inl (BitVec.isLt _)⟩)
  | @jeq a =>
    refine .inr (.inr ⟨rfl, ?_⟩)
    split
    · exact .inl (BitVec.isLt _)
    · exact .inr ⟨rfl, a, .inl rfl⟩
  | @jne a =>
    refine .inr (.inr ⟨rfl, ?_⟩)
    split
    · exact .inl (BitVec.isLt _)
    · exact .inr ⟨rfl, a, .inr rfl⟩
  | alu hm => exact .inl ⟨hm.kind_eq .., by simp [hm.width_eq]⟩
  | _ => exact .inl ⟨rfl, rfl⟩

/-- A register that the instruction may not write keeps its value (R21). -/
theorem Completes.reg_eq (h : Completes s i t) {r : Reg} (hr : ¬Claims.MayWrite i r) : t.reg r = s.reg r := by
  have hne {a : RegByte} (ha : a.toNat < 8) (h : ¬a.toNat = r.val) : r ≠ ⟨a.toNat, ha⟩ := fun e => h (by simp [e])
  cases h with
  | ldi ha => exact s.setReg_reg_ne _ (hne ha hr)
  | alu hm ha => exact s.setReg_reg_ne _ (hne ha (mt (hm.mayWrite_iff ..).2 hr))
  | push | call | ret => exact s.setSp_reg_ne _ hr
  | pop ha =>
    obtain ⟨hdest, hsp⟩ := not_or.1 hr
    exact (State.setSp_reg_ne _ _ hsp).trans (s.setReg_reg_ne _ (hne ha hdest))
  | jeq | jne => split <;> rfl
  | prn | hlt | jmp | cmp => rfl

/-- Memory stays in its canonical form: `PUSH` and `CALL` store inside memory, and no other instruction stores. -/
theorem Completes.memory_wf (h : Completes s i t) (hM : s.M.wf) : t.M.wf := by
  cases h with
  | push | call => exact Memory.wf_write hM (BitVec.isLt _) _
  | jeq | jne => split <;> exact hM
  | _ => exact hM

theorem Completes.FL_eq (h : Completes s i t) (hi : ∀ a b, i ≠ .cmp a b) : t.FL = s.FL := by
  cases h with
  | cmp => exact absurd rfl (hi _ _)
  | jeq | jne => split <;> rfl
  | _ => rfl

theorem compareFlags_atMostOne (A B : Byte) : (compareFlags A B).atMostOne := by
  rcases compareFlags_cases A B with ⟨-, h⟩ | ⟨-, h⟩ | ⟨-, h⟩ <;> simp [h, Flags.atMostOne]

theorem Completes.flags_atMostOne (h : Completes s i t) (hF : s.FL.atMostOne) : t.FL.atMostOne := by
  cases h with
  | cmp => exact compareFlags_atMostOne _ _
  | jeq | jne => split <;> exact hF
  | _ => exact hF

theorem Completes.console_eq (h : Completes s i t) (hi : ∀ a : Byte, a.toNat < 8 → i ≠ .prn a) :
    t.console = s.console := by
  cases h with
  | prn ha => exact absurd rfl (hi _ ha)
  | jeq | jne => split <;> rfl
  | _ => rfl

/-! ### What an instruction does not read -/

/-- The faults an instruction raises depend on registers, `pc` and memory alone. -/
theorem Raises.of_other_flags_console {k : FaultKind} (h : Raises s i k) (f : Flags) (c : List Byte) :
    Raises { s with FL := f, console := c } i k := by
  cases h with
  | illFormed h => exact .illFormed h
  | push ha hsp => exact .push ha hsp
  | pop ha h => exact .pop ha h
  | callAddress hpc => exact .callAddress hpc
  | callStack ha hpc hsp => exact .callStack ha hpc hsp
  | ret hsp => exact .ret hsp

/-- No instruction reads the console stream; the ones that do not print leave whatever stream they find. -/
theorem Completes.of_other_console (h : Completes s i t) (hi : ∀ a : Byte, a.toNat < 8 → i ≠ .prn a)
    (c : List Byte) : Completes { s with console := c } i { t with console := c } := by
  cases h with
  | ldi ha => exact .ldi ha
  | prn ha => exact absurd rfl (hi _ ha)
  | hlt => exact .hlt
  | push ha hsp => exact .push ha hsp
  | pop ha hsp htop => exact .pop ha hsp htop
  | call ha hpc hsp => exact .call ha hpc hsp
  | ret hsp => exact .ret hsp
  | jmp ha => exact .jmp ha
  | jeq ha =>
    convert Completes.jeq (s := { s with console := c }) ha using 1
    split <;> rfl
  | jne ha =>
    convert Completes.jne (s := { s with console := c }) ha using 1
    split <;> rfl
  | cmp ha hb => exact .cmp ha hb
  | alu hm ha hb => exact .alu hm ha hb

/-- No instruction but `JEQ` and `JNE` reads the flags, and those read `E` alone; the ones that do not compare leave
whatever flags they find. -/
theorem Completes.of_other_flags (h : Completes s i t) (hi : ∀ a b, i = .cmp a b → ¬(a.toNat < 8 ∧ b.toNat < 8))
    {f : Flags} (hE : (∃ a, i = .jeq a ∨ i = .jne a) → f.E = s.FL.E) :
    Completes { s with FL := f } i { t with FL := f } := by
  cases h with
  | ldi ha => exact .ldi ha
  | prn ha => exact .prn ha
  | hlt => exact .hlt
  | push ha hsp => exact .push ha hsp
  | pop ha hsp htop => exact .pop ha hsp htop
  | call ha hpc hsp => exact .call ha hpc hsp
  | ret hsp => exact .ret hsp
  | jmp ha => exact .jmp ha
  | @jeq a ha =>
    convert Completes.jeq (s := { s with FL := f }) ha using 1
    rw [show f.E = s.FL.E from hE ⟨a, .inl rfl⟩]
    split <;> rfl
  | @jne a ha =>
    convert Completes.jne (s := { s with FL := f }) ha using 1
    rw [show f.E = s.FL.E from hE ⟨a, .inr rfl⟩]
    split <;> rfl
  | cmp ha hb => exact absurd ⟨ha, hb⟩ (hi _ _ rfl)
  | alu hm ha hb => exact .alu hm ha hb

theorem EndsIn.of_other_console (h : EndsIn s i t) (hi : ∀ a : Byte, a.toNat < 8 → i ≠ .prn a) (c : List Byte) :
    EndsIn { s with console := c } i { t with console := c } := by
  obtain hc | ⟨k, hr, rfl⟩ := h
  · exact (hc.of_other_console hi c).endsIn
  · exact (hr.of_other_flags_console s.FL c).endsIn

theorem EndsIn.of_other_flags (h : EndsIn s i t) (hi : ∀ a b, i = .cmp a b → ¬(a.toNat < 8 ∧ b.toNat < 8))
    {f : Flags} (hE : (∃ a, i = .jeq a ∨ i = .jne a) → f.E = s.FL.E) :
    EndsIn { s with FL := f } i { t with FL := f } := by
  obtain hc | ⟨k, hr, rfl⟩ := h
  · exact (hc.of_other_flags hi hE).endsIn
  · exact (hr.of_other_flags_console f s.console).endsIn

end Sys2Proof.Machine
end

section
/-! The state's invariant and the frames of every instruction (10_state.md). -/

namespace Sys2Proof.Machine

open Sys2Proof.Claims

variable {s t : State} {i : Instr}

/-- Taking a fault keeps the invariant: it changes the status alone, and records this `pc` and its opcode byte. -/
theorem State.Inv.raise (h : s.Inv) (k : FaultKind) : (s.raise k).Inv where
  pcInRange := h.pcInRange
  memoryCanonical := h.memoryCanonical
  flagsExclusive := h.flagsExclusive
  recordAgrees := by
    intro r hr
    obtain rfl := Status.faulted.inj hr
    exact ⟨rfl, rfl⟩

/-- An instruction whose bytes are inside memory leaves `pc` in 0..256. -/
theorem Completes.pc_le (h : Completes s i t) (hpc : s.pc ≤ Config.memSize) (hfit : s.pc + i.width ≤ Config.memSize) :
    t.pc ≤ Config.memSize := by
  rcases h.pc_cases with ⟨-, hp⟩ | ⟨-, hp⟩ | ⟨-, hp | ⟨hp, a, rfl | rfl⟩⟩
  · rwa [hp]
  · rwa [hp]
  · exact Nat.le_of_lt hp
  · rw [hp]; exact hfit
  · rw [hp]; exact hfit

/-- A completing instruction of a running core leaves no fault record. -/
theorem Completes.recordAgrees (h : Completes s i t) (hs : s.status = .running) : t.recordAgrees := by
  intro r hr
  rcases h.status_cases with ⟨ht, -⟩ | ⟨-, rfl⟩
  · rw [ht, hs] at hr; cases hr
  · cases hr

theorem Completes.inv (h : Completes s i t) (hs : s.status = .running) (hfit : s.pc + i.width ≤ Config.memSize)
    (hI : s.Inv) : t.Inv where
  pcInRange := h.pc_le hI.pcInRange hfit
  memoryCanonical := h.memory_wf hI.memoryCanonical
  flagsExclusive := h.flags_atMostOne hI.flagsExclusive
  recordAgrees := h.recordAgrees hs

/-- Settles O17: the decoded instruction ends inside memory, so it keeps `pc` in range when it completes; a fault
records the instruction at `pc`. -/
theorem stepKeepsInvariant : Obligations.StepKeepsInvariant := by
  intro s t hI h
  obtain ⟨-, rfl⟩ | ⟨hs, i, rest, hd, hi⟩ | ⟨-, e, -, rfl⟩ := step_cases h
  · exact hI
  · obtain hc | ⟨k, -, rfl⟩ := exec_eq_next.1 hi
    · exact hc.inv hs (State.pc_add_width_le hd) hI
    · exact hI.raise k
  · exact hI.raise _

/-- Settles O21: every instruction but a well-formed `CMP` keeps the flags it finds and does the same on others; `CMP`
does not use the ones it overwrites; `JEQ` and `JNE` go to their register or to `pc + 2`, by `E`. -/
theorem flagsWrittenByCmpReadByJumps : Obligations.FlagsWrittenByCmpReadByJumps := by
  refine ⟨fun i s t f h => ⟨fun hi => ?_, fun hE => ⟨fun hi => ?_, ?_⟩⟩, fun a ha s f hne i hi => ?_⟩
  · obtain hc | ⟨k, -, rfl⟩ := exec_eq_next.1 h
    · exact hc.FL_eq hi
    · rfl
  · exact exec_eq_next.2 ((exec_eq_next.1 h).of_other_flags hi hE)
  · rintro a b rfl ha hb
    obtain ⟨_, _, rfl⟩ | ⟨hbad, -⟩ := execCmp_next.1 h
    · exact execCmp_next.2 (.inl ⟨ha, hb, rfl⟩)
    · exact absurd ⟨ha, hb⟩ hbad
  · obtain rfl | rfl := hi
    · exact ⟨_, _, (Completes.jeq ha).exec_eq, (Completes.jeq ha).exec_eq, hne⟩
    · exact ⟨_, _, (Completes.jne ha).exec_eq, (Completes.jne ha).exec_eq, hne.symm⟩

/-- Settles O22: `PRN` appends its register's byte to whatever stream it finds, and every other instruction keeps
whatever stream it finds. -/
theorem consoleWrittenByPrnReadByNone : Obligations.ConsoleWrittenByPrnReadByNone := by
  refine ⟨rfl, fun i s t h => ?_⟩
  by_cases hp : ∃ a : Byte, a.toNat < 8 ∧ i = .prn a
  · obtain ⟨a, ha, rfl⟩ := hp
    obtain ⟨_, rfl⟩ | ⟨hbad, -⟩ := execPrn_next.1 h
    · refine ⟨[s.x[a.toNat]], rfl, ?_, fun hno => absurd rfl (hno a ha), fun c => ?_⟩
      · rintro b hb e
        cases e
        rfl
      · exact execPrn_next.2 (.inl ⟨ha, rfl⟩)
    · exact absurd ha hbad
  · have hi : ∀ a : Byte, a.toNat < 8 → i ≠ .prn a := fun a ha e => hp ⟨a, ha, e⟩
    refine ⟨[], ?_, fun a ha e => absurd e (hi a ha), fun _ => rfl, fun c => ?_⟩
    · rw [List.append_nil]
      obtain hc | ⟨k, -, rfl⟩ := exec_eq_next.1 h
      · exact hc.console_eq hi
      · rfl
    · rw [List.append_nil]
      exact exec_eq_next.2 ((exec_eq_next.1 h).of_other_console hi c)

/-- A step only adds to the end of the console stream. -/
theorem step_console (h : step s = .next t) : ∃ out, t.console = s.console ++ out := by
  obtain ⟨-, rfl⟩ | ⟨-, i, -, -, hi⟩ | ⟨-, e, -, rfl⟩ := step_cases h
  · exact ⟨[], (List.append_nil _).symm⟩
  · obtain ⟨out, hout, -⟩ := consoleWrittenByPrnReadByNone.2 i s t hi
    exact ⟨out, hout⟩
  · exact ⟨[], (List.append_nil _).symm⟩

/-- A run of `k + 1` steps is one step and then a run of `k`. -/
theorem run_succ {k : Nat} {u : State} (h : step s = .next u) :
    Sys2Proof.core.run (k + 1) s = Sys2Proof.core.run k u := by
  have h' : Sys2Proof.core.step s = .next u := h
  simp only [Host.Core.run, h']

/-- Settles O19, by induction on the length of the run. -/
theorem consoleOnlyGrows : Obligations.ConsoleOnlyGrows := by
  intro k
  induction k with
  | zero =>
    intro s t h
    obtain rfl := Host.Outcome.next.inj h
    exact ⟨[], (List.append_nil _).symm⟩
  | succ k ih =>
    intro s t h
    obtain ⟨u, hu⟩ := step_total s
    obtain ⟨first, hfirst⟩ := step_console hu
    obtain ⟨later, hlater⟩ := ih u t (run_succ hu ▸ h)
    exact ⟨first ++ later, by rw [hlater, hfirst, List.append_assoc]⟩

/-- Settles O25: a fault writes no register, and a completing instruction only those of `MayWrite`. -/
theorem otherRegistersKept : Obligations.OtherRegistersKept := by
  intro i s t r h hr
  obtain hc | ⟨k, -, rfl⟩ := exec_eq_next.1 h
  · exact hc.reg_eq hr
  · rfl

/-- Settles O26. -/
theorem statusChangesByHltOrFault : Obligations.StatusChangesByHltOrFault := by
  intro i s t h
  obtain hc | ⟨k, -, rfl⟩ := exec_eq_next.1 h
  · obtain hkept | hhlt := hc.status_cases
    · exact .inl hkept
    · exact .inr (.inl hhlt)
  · exact .inr (.inr ⟨k, rfl⟩)

/-- Settles O27: without a fault the instruction completes, and each class has one way to leave `pc`. -/
theorem pcByWidthOrToTarget : Obligations.PcByWidthOrToTarget := by
  intro i s t _ h hsafe
  obtain hc | ⟨k, -, rfl⟩ := exec_eq_next.1 h
  · rcases hc.pc_cases with ⟨hk, hp⟩ | ⟨hk, hp⟩ | ⟨hk, hp⟩ <;> simp [hk, hp]
  · exact absurd rfl (hsafe _)

/-- Settles O18: the empty memory is canonical, no flag is set, and the core is halted without a record. -/
theorem resetMeetsInvariant : Obligations.ResetMeetsInvariant where
  pcInRange := Nat.zero_le _
  memoryCanonical := Memory.wf_nil
  flagsExclusive := by simp [Flags.atMostOne, State.reset]
  recordAgrees := by
    intro r hr
    cases hr

end Sys2Proof.Machine
end

section
/-! A well-formed instruction whose bytes are at `pc` is what the step runs. -/

namespace Sys2Proof

/-- The operand bytes of a well-formed instruction are accepted, whatever follows them (R74, R75). -/
theorem decodeOperands_wellFormed {i : Instr} (h : i.WellFormed) (rest : List Byte) :
    decodeOperands i.opcode i.shape ((encode i).tail ++ rest) = .ok (i, rest) := by
  cases i with
  | hlt | ret => rfl
  | ldi | prn | push | pop | call | jmp | jeq | jne => exact if_pos h
  | add | sub | mul | cmp | and | or | xor | not | shl =>
    obtain ⟨ha, hb⟩ := (Bool.and_eq_true _ _).mp h
    exact (if_pos ha).trans (if_pos hb)

/-- The decoder reads a well-formed instruction back from its own bytes. -/
theorem decode_encode {i : Instr} (h : i.WellFormed) (rest : List Byte) :
    decode (encode i ++ rest) = .ok (i, rest) := by
  rw [encode_cons, List.cons_append, decode_opcode, decodeOperands_wellFormed h]

namespace Machine

open Sys2Proof.Claims

variable {s : State} {i : Instr}

/-- The step of a well-formed instruction that is placed at `pc` is its `exec` (R83, R84). -/
theorem step_eq_exec_of_placed (hi : i.WellFormed) (h : Placed i s) : step s = exec i s := by
  obtain ⟨hs, hfit, hbytes⟩ := h
  have hd : decode s.fetch = .ok (i, []) := by
    rw [State.fetch_eq_encode hfit hbytes, ← List.append_nil (encode i), decode_encode hi]
  exact step_running hs hd

/-- The step of an opcode byte outside the map raises `InvalidInstruction` (R83, R171). -/
theorem step_unknownOpcode (hs : s.status = .running) (hpc : s.pc < 256) (hop : lookupOp (s.M.read s.pc) = none) :
    step s = .next (faultedAs s .invalidInstruction (some (s.M.read s.pc))) := by
  have hd : decode s.fetch = .error (.unknownOpcode (s.M.read s.pc)) := by
    rw [State.fetch_unknown hpc hop, decode_unknown hop]
  rw [step_error hs hd]
  simp only [State.raise, State.opcode?, if_pos hpc, decodeFault, faultedAs]

/-- The byte 0x01 at `pc` is `HLT`, at every address (R102). -/
theorem placed_hlt (hs : s.status = .running) (hpc : s.pc < 256) (hop : s.M.read s.pc = 0x01#8) : Placed .hlt s := by
  refine ⟨hs, hpc, fun k hk => ?_⟩
  obtain rfl : k = 0 := Nat.lt_one_iff.1 hk
  exact hop

theorem step_hlt (hs : s.status = .running) (hpc : s.pc < 256) (hop : s.M.read s.pc = 0x01#8) :
    step s = .next s.halt :=
  (step_eq_exec_of_placed rfl (placed_hlt hs hpc hop)).trans Completes.hlt.exec_eq

end Machine
end Sys2Proof
end

section
/-! Memory: its accesses, which instructions store and which load, and the fetch of a stored byte (20_memory.md). -/

namespace Sys2Proof.Machine

open Sys2Proof.Claims

variable {s t : State} {i : Instr}

theorem memRead_inside {a : Nat} (s : State) (h : a < 256) : memRead s a = .ok (s.M.read a) := if_pos h

theorem memRead_outside {a : Nat} (s : State) (h : 256 ≤ a) : memRead s a = .error .operandOutOfRange :=
  if_neg (Nat.not_lt.2 h)

theorem memWrite_inside {a : Nat} (s : State) (h : a < 256) (v : Byte) :
    memWrite s a v = .ok { s with M := s.M.write a v } := if_pos h

theorem memWrite_outside {a : Nat} (s : State) (h : 256 ≤ a) (v : Byte) :
    memWrite s a v = .error .operandOutOfRange := if_neg (Nat.not_lt.2 h)

/-- An access reads memory alone, at its own address alone. -/
theorem memRead_congr {a : Nat} (h : t.M.read a = s.M.read a) : memRead t a = memRead s a := by
  rw [memRead, memRead, h]

/-- Settles O42: an access inside 0..255 is `Memory.read` or `Memory.write`, whose laws say the rest. -/
theorem memoryAccess : Obligations.MemoryAccess := by
  intro s a v
  refine ⟨fun ha => ⟨_, memWrite_inside s ha v, ?_, fun b hb => ?_, rfl, fun hM => Memory.wf_write hM ha v⟩,
    fun ha => ⟨memRead_outside s ha, memWrite_outside s ha v⟩⟩
  · rw [memRead_inside _ ha, Memory.read_write_self]
  · exact memRead_congr (Memory.read_write_ne _ v hb)

/-! ### Stores -/

/-- An instruction other than `PUSH` and `CALL` leaves the memory. -/
theorem Completes.M_eq (h : Completes s i t) (hi : ∀ a, i ≠ .push a ∧ i ≠ .call a) : t.M = s.M := by
  cases h with
  | push => exact absurd rfl (hi _).1
  | call => exact absurd rfl (hi _).2
  | jeq | jne => split <;> rfl
  | _ => rfl

/-- `PUSH` and `CALL` write one byte, at the decremented stack pointer (R111). -/
theorem Completes.M_eq_write {a : RegByte} (h : Completes s i t) (hi : i = .push a ∨ i = .call a) :
    ∃ v, t.M = s.M.write (s.sp - 1#8).toNat v := by
  cases h with
  | push | call => exact ⟨_, rfl⟩
  | alu hm => cases hm <;> simp at hi
  | _ => simp at hi

/-- Settles O23: a fault leaves the memory, and a completing instruction writes at most the byte of a push. -/
theorem onlyPushAndCallStore : Obligations.OnlyPushAndCallStore := by
  intro i s t h
  obtain hc | ⟨k, -, rfl⟩ := exec_eq_next.1 h
  · refine ⟨fun hi addr => by rw [hc.M_eq hi], fun a hi addr hne => ?_⟩
    obtain ⟨v, hv⟩ := hc.M_eq_write hi
    rw [hv, Memory.read_write_ne _ _ hne]
  · exact ⟨fun _ _ => rfl, fun _ _ _ _ => rfl⟩

/-! ### Loads -/

/-- The faults of an instruction other than `POP` do not depend on the memory. -/
theorem Raises.of_other_memory {k : FaultKind} (h : Raises s i k) (hpop : ∀ a, i ≠ .pop a) (m : Memory) :
    Raises { s with M := m } i k := by
  cases h with
  | illFormed h => exact .illFormed h
  | push ha hsp => exact .push ha hsp
  | pop => exact absurd rfl (hpop _)
  | callAddress hpc => exact .callAddress hpc
  | callStack ha hpc hsp => exact .callStack ha hpc hsp
  | ret hsp => exact .ret hsp

/-- A fault record holds no byte of memory but the opcode. -/
theorem State.raise_of_other_memory {m : Memory} (hop : opcodeAt { s with M := m } = opcodeAt s) (k : FaultKind) :
    { s with M := m }.raise k = { s.raise k with M := m } := by
  have hop' : { s with M := m }.opcode? = s.opcode? := hop
  simp only [State.raise, hop']

/-- An instruction other than `POP` and `RET` does the same on every memory: it leaves the one it finds, or writes one
byte, whose address and value do not depend on that memory. -/
theorem Completes.of_other_memory (h : Completes s i t) (hpop : ∀ a, i ≠ .pop a) (hret : i ≠ .ret) (m : Memory) :
    (t.M = s.M ∧ Completes { s with M := m } i { t with M := m }) ∨
      ∃ addr v, t.M = s.M.write addr v ∧ Completes { s with M := m } i { t with M := m.write addr v } := by
  cases h with
  | ldi ha => exact .inl ⟨rfl, .ldi ha⟩
  | prn ha => exact .inl ⟨rfl, .prn ha⟩
  | hlt => exact .inl ⟨rfl, .hlt⟩
  | push ha hsp => exact .inr ⟨_, _, rfl, .push ha hsp⟩
  | pop => exact absurd rfl (hpop _)
  | call ha hpc hsp => exact .inr ⟨_, _, rfl, .call ha hpc hsp⟩
  | ret => exact absurd rfl hret
  | jmp ha => exact .inl ⟨rfl, .jmp ha⟩
  | jeq ha =>
    refine .inl ⟨by split <;> rfl, ?_⟩
    convert Completes.jeq (s := { s with M := m }) ha using 1
    split <;> rfl
  | jne ha =>
    refine .inl ⟨by split <;> rfl, ?_⟩
    convert Completes.jne (s := { s with M := m }) ha using 1
    split <;> rfl
  | cmp ha hb => exact .inl ⟨rfl, .cmp ha hb⟩
  | alu hm ha hb => exact .inl ⟨rfl, .alu hm ha hb⟩

/-- Settles O24: on the other memory the instruction takes the same fault, or completes with the same write. -/
theorem onlyPopAndRetLoad : Obligations.OnlyPopAndRetLoad := by
  intro i s t m hpop hret h hop
  obtain hc | ⟨k, hr, rfl⟩ := exec_eq_next.1 h
  · obtain ⟨hM, hc'⟩ | ⟨addr, v, hM, hc'⟩ := hc.of_other_memory hpop hret m
    · exact ⟨_, hc'.exec_eq, rfl, rfl, rfl, rfl, rfl, fun b hb => absurd (by rw [hM]) hb⟩
    · refine ⟨_, hc'.exec_eq, rfl, rfl, rfl, rfl, rfl, fun b hb => ?_⟩
      obtain rfl : b = addr := by
        by_contra hne
        exact hb (by rw [hM, Memory.read_write_ne _ _ hne])
      rw [hM, Memory.read_write_self, Memory.read_write_self]
  · refine ⟨_, (hr.of_other_memory hpop m).exec_eq, ?_⟩
    rw [State.raise_of_other_memory hop]
    exact ⟨rfl, rfl, rfl, rfl, rfl, fun _ hb => absurd rfl hb⟩

/-! ### The fetch of a stored byte -/

/-- The register that a push reads after it has decremented `SP` (D19). -/
theorem State.setSp_reg_eq {a : RegByte} (h : a.toNat < 8) (s : State) (v : Byte) :
    (s.setSp v).reg ⟨a.toNat, h⟩ = if a.toNat = 7 then v else s.x[a.toNat] := by
  have hsp : (⟨a.toNat, h⟩ : Reg) = Config.spReg ↔ a.toNat = 7 := Fin.ext_iff
  rw [State.setSp, State.setReg_reg, if_congr hsp rfl rfl]
  rfl

/-- Settles O41: the push leaves `pc` at the address it stores to, and the next step fetches there. -/
theorem pushedByteIsFetched : Obligations.PushedByteIsFetched := by
  intro a s ha hplaced hsp hnext
  have hrun : s.status = .running := hplaced.1
  have hstep := (step_eq_exec_of_placed ((Instr.wellFormed_push a).2 ha) hplaced).trans
    (Completes.push ha hsp).exec_eq
  have hpc : s.pc + 2 < 256 := hnext ▸ (s.sp - 1#8).isLt
  refine ⟨_, hstep, rfl, ?_, fun hop => step_unknownOpcode hrun hpc hop, fun hop => step_hlt hrun hpc hop⟩
  rw [← State.setSp_reg_eq ha s]
  simp only [State.advance_M, State.advance_pc, State.pushed_M, State.pushed_pc, hnext, Memory.read_write_self]

end Sys2Proof.Machine
end

section
/-! The decoder, the encoder, and the step of the bytes at `pc` (30_encoding.md). -/

namespace Sys2Proof

variable {i j : Instr}

/-! ### Decode and encode -/

/-- Settles O1: the operand bytes of a well-formed instruction are accepted and the opcode map answers its format. -/
theorem decodeOfEncode : Obligations.DecodeOfEncode := fun _ rest hi => decode_encode hi rest

/-- Settles O2: each format accepts exactly the operand bytes that the encoding of its instructions writes. -/
theorem decodedBytesAreTheEncoding : Obligations.DecodedBytesAreTheEncoding := fun _ _ _ h => decode_eq_ok h

/-- Settles O5: each word is the encoding of its instruction. -/
theorem wordsDecodeAsTheTableSays : Obligations.WordsDecodeAsTheTableSays :=
  ⟨decode_encode (i := .ldi 2 200) rfl [], decode_encode (i := .hlt) rfl [], decode_encode (i := .push 1) rfl [],
    decode_encode (i := .jeq 2) rfl [], decode_encode (i := .sub 3 1) rfl [], decode_encode (i := .not 1 0) rfl []⟩

/-! ### The opcode byte -/

theorem opcode_of_encode_eq {op : Byte} {operands : List Byte} (h : encode i = op :: operands) : i.opcode = op := by
  rw [Instr.opcode, h, List.headD_cons]

theorem opcode_of_decode {op : Byte} {bs rest : List Byte} (h : decode (op :: bs) = .ok (i, rest)) :
    i.opcode = op := by
  obtain ⟨-, hbytes⟩ := decode_eq_ok h
  rw [encode_cons, List.cons_append] at hbytes
  exact (List.cons.inj hbytes).1.symm

/-- The opcode map gives one format, so one length, to an opcode (R77). -/
theorem width_eq_of_opcode_eq (h : i.opcode = j.opcode) : i.width = j.width := by
  have hshape : some i.shape = some j.shape := by rw [← lookupOp_opcode, h, lookupOp_opcode]
  rw [width_eq_shape_width, width_eq_shape_width, Option.some.inj hshape]

theorem width_of_encode_eq {op : Byte} {operands : List Byte} (h : encode i = op :: operands) :
    i.width = 1 + operands.length := by
  rw [Instr.width, h, List.length_cons, Nat.add_comm]

/-- Bits 7:6 count the operands, except for `NOT` (R73, R81). -/
theorem opcode_operandCount (h : ∀ a b, i ≠ .not a b) : i.opcode.toNat / 64 = (encode i).tail.length := by
  cases i with
  | not a b => exact absurd rfl (h a b)
  | _ => simp [Instr.opcode, encode]

theorem operandCount_of_encode_eq {op : Byte} {operands : List Byte} (he : encode i = op :: operands)
    (h : ∀ a b, i ≠ .not a b) : op.toNat / 64 = operands.length := by
  rw [← opcode_of_encode_eq he, opcode_operandCount h, he, List.tail_cons]

/-- Bit 4 marks control transfer (R73). -/
theorem opcode_bit4 (i : Instr) : i.opcode.getLsbD 4 = decide (i.kind = .controlTransfer) := by
  cases i <;> simp [Instr.opcode, encode, Instr.kind]

/-- Bit 5 marks the ALU instructions: those of the ALU contract, and `CMP` (R73). -/
theorem opcode_bit5 (i : Instr) : i.opcode.getLsbD 5 = true ↔ ∃ a b : Byte, i = .add a b ∨ i = .sub a b ∨
    i = .mul a b ∨ i = .cmp a b ∨ i = .and a b ∨ i = .or a b ∨ i = .xor a b ∨ i = .not a b ∨ i = .shl a b := by
  cases i with
  | add a b | sub a b | mul a b | cmp a b | and a b | or a b | xor a b | not a b | shl a b =>
    exact iff_of_true (by simp [Instr.opcode, encode]) ⟨a, b, by simp⟩
  | _ => exact iff_of_false (by simp [Instr.opcode, encode]) (by simp)

/-- Settles O4: a column of the opcode map for each bit field. -/
theorem opcodeBitFields : Obligations.OpcodeBitFields := by
  intro i op operands he
  obtain rfl := opcode_of_encode_eq he
  exact ⟨operandCount_of_encode_eq he, by rw [opcode_bit4, decide_eq_true_iff], opcode_bit5 i⟩

/-- Settles O3: one format per opcode, the width column, the advance of a completed sequential instruction, and
bits 7:6. -/
theorem lengthFromOpcodeAlone : Obligations.LengthFromOpcodeAlone := by
  refine ⟨fun op bs bs' i i' r r' h h' => ?_, fun a b v => ?_, fun i s t hk hs h ht => ?_,
    fun i op operands he => ⟨fun hnot => ?_, ?_⟩⟩
  · exact width_eq_of_opcode_eq ((opcode_of_decode h).trans (opcode_of_decode h').symm)
  · simp [Instr.width, encode]
  · exact (Machine.pcByWidthOrToTarget i s t hs h (by simp [ht])).1 hk
  · rw [operandCount_of_encode_eq he hnot, width_of_encode_eq he]
  · rintro ⟨a, b, rfl⟩
    obtain rfl : 0x69#8 = op := opcode_of_encode_eq he
    exact ⟨rfl, rfl⟩

/-- The opcodes of the map begin a well-formed instruction. -/
theorem exists_wellFormed_of_mem_opMap {op : Byte} (h : op ∈ opMap.map Prod.fst) :
    ∃ i : Instr, i.WellFormed ∧ i.opcode = op := by
  have hwf : ∀ i ∈ opcodeSamples, i.WellFormed := by decide
  rw [opMap_eq_samples, List.map_map] at h
  obtain ⟨i, hi, hop⟩ := List.mem_map.1 h
  exact ⟨i, hwf i hi, hop⟩

theorem lookupOp_eq_none {op : Byte} (h : op ∉ opMap.map Prod.fst) : lookupOp op = none := by
  refine List.lookup_eq_none_iff.2 fun p hp => ?_
  have hne : op ≠ p.1 := fun e => h (e ▸ List.mem_map_of_mem hp)
  simpa using hne

theorem opcode_mem_opMap (i : Instr) : i.opcode ∈ opMap.map Prod.fst := by
  by_contra h
  exact Option.some_ne_none _ ((lookupOp_opcode i).symm.trans (lookupOp_eq_none h))

/-- The opcodes that begin some instruction are those of the map (R80). -/
theorem exists_decode_iff (op : Byte) :
    (∃ bs i rest, decode (op :: bs) = .ok (i, rest)) ↔ op ∈ opMap.map Prod.fst := by
  constructor
  · rintro ⟨bs, i, rest, h⟩
    exact opcode_of_decode h ▸ opcode_mem_opMap i
  · intro h
    obtain ⟨i, hi, rfl⟩ := exists_wellFormed_of_mem_opMap h
    refine ⟨(encode i).tail ++ [], i, [], ?_⟩
    rw [← List.cons_append, ← encode_cons, decode_encode hi]

/-- Settles O6: the nineteen values are the first column of the opcode map, and the lookup refuses every other one. -/
theorem nineteenOpcodes : Obligations.NineteenOpcodes := fun op =>
  ⟨exists_decode_iff op, fun h => decode_unknown (lookupOp_eq_none (mt (exists_decode_iff op).2 h))⟩

/-! ### The number of an opcode-table row -/

/-- Bytes as one number, the first one most significant (log entry 29). -/
def bytesNumber (bs : List Byte) : Nat := bs.foldl (fun n b => n * 256 + b.toNat) 0

theorem tableNumber_eq (i : Instr) : Claims.tableNumber i = bytesNumber (encode i) := rfl

theorem bytesNumber_append_singleton (bs : List Byte) (b : Byte) :
    bytesNumber (bs ++ [b]) = bytesNumber bs * 256 + b.toNat := by
  rw [bytesNumber, List.foldl_append]
  rfl

/-- A shift by a further byte drops the last byte of the number. -/
theorem bytesNumber_append_singleton_shiftRight (bs : List Byte) (b : Byte) (k : Nat) :
    bytesNumber (bs ++ [b]) >>> (8 * (k + 1)) = bytesNumber bs >>> (8 * k) := by
  have hb := b.isLt
  have hdrop : (bytesNumber bs * 256 + b.toNat) >>> 8 = bytesNumber bs := by
    rw [Nat.shiftRight_eq_div_pow]
    omega
  rw [bytesNumber_append_singleton, Nat.mul_succ 8 k, Nat.add_comm (8 * k), Nat.shiftRight_add, hdrop]

/-- The number of a list of bytes gives the bytes back, by shifts of whole bytes. -/
theorem range_map_bytesNumber (bs : List Byte) :
    (List.range bs.length).map (fun k => BitVec.ofNat 8 (bytesNumber bs >>> (8 * (bs.length - 1 - k)))) = bs := by
  induction bs using List.reverseRecOn with
  | nil => rfl
  | append_singleton bs b ih =>
    have hfront : ∀ k ∈ List.range bs.length,
        BitVec.ofNat 8 (bytesNumber (bs ++ [b]) >>> (8 * (bs.length - k))) =
          BitVec.ofNat 8 (bytesNumber bs >>> (8 * (bs.length - 1 - k))) := by
      intro k hk
      have hlt := List.mem_range.1 hk
      rw [show bs.length - k = bs.length - 1 - k + 1 by omega, bytesNumber_append_singleton_shiftRight]
    have hlast : BitVec.ofNat 8 (bytesNumber (bs ++ [b])) = b := by
      refine BitVec.eq_of_toNat_eq ?_
      rw [bytesNumber_append_singleton, BitVec.toNat_ofNat]
      omega
    simp only [List.length_append, List.length_singleton, Nat.add_sub_cancel, List.range_succ, List.map_append,
      List.map_congr_left hfront, ih, List.map_singleton, Nat.sub_self, Nat.mul_zero, Nat.shiftRight_zero, hlast]

/-- A table word's bytes are the instruction's, filled up with zero bytes to the longest length. -/
theorem tableBytes_tableNumber (i : Instr) :
    tableBytes (8 * i.width) (Claims.tableNumber i) =
      encode i ++ (List.replicate Config.maxInstrLen 0#8).take (Config.maxInstrLen - i.width) := by
  have hfit : (encode i).length ≤ Config.maxInstrLen := (width_pos i).2
  have hbytes := range_map_bytesNumber (encode i)
  simp only [tableBytes, Nat.mul_div_cancel_left _ (Nat.succ_pos 7), tableNumber_eq, Instr.width, hbytes,
    List.take_append, List.take_of_length_le hfit]

theorem decodeTableWord_tableNumber (hi : i.WellFormed) :
    decodeTableWord (8 * i.width) (Claims.tableNumber i) = some i := by
  simp only [decodeTableWord, tableBytes_tableNumber, decode_encode hi]

namespace Machine

open Sys2Proof.Claims

variable {s : State}

/-! ### Placing a table word for the fetch -/

theorem Memory.read_writeBytes_add (m : Memory) (a : Nat) {vs : List Byte} {k : Nat} (h : k < vs.length) :
    (m.writeBytes a vs).read (a + k) = vs[k] := by
  simp [Memory.read_writeBytes, h]

theorem State.placeFor_add_maxInstrLen_le (s : State) : s.placeFor + Config.maxInstrLen ≤ Config.memSize := by
  unfold State.placeFor
  split
  · assumption
  · decide

/-- An instruction's table word stands at `pc` of the running core it is placed for (log entry 30). -/
theorem placed_withFetchWord (i : Instr) (s : State) :
    Placed i (s.withFetchWord (8 * i.width) (tableNumber i)) := by
  have hfit : s.placeFor + 3 ≤ 256 := s.placeFor_add_maxInstrLen_le
  have hwidth : (encode i).length ≤ 3 := (width_pos i).2
  refine ⟨rfl, ?_, fun k hk => ?_⟩
  · change s.placeFor + (encode i).length ≤ 256
    omega
  · have hk' : k < (encode i ++ (List.replicate Config.maxInstrLen 0#8).take (Config.maxInstrLen - i.width)).length :=
      hk.trans_le (List.sublist_append_left ..).length_le
    change (s.M.writeBytes s.placeFor _).read (s.placeFor + k) = _
    rw [tableBytes_tableNumber, Memory.read_writeBytes_add _ _ hk', List.getElem_append_left hk]

/-- Settles O8: the fetch reads the encoding and the decoder reads it back. -/
theorem stepRunsTheDecodedInstruction : Obligations.StepRunsTheDecodedInstruction := fun _ _ hi hp =>
  step_eq_exec_of_placed hi hp

/-- Settles O7: the table number gives the encoding back, and the placed word is what the step fetches. -/
theorem tableWordIsRunNext : Obligations.TableWordIsRunNext := fun i hi =>
  ⟨decodeTableWord_tableNumber hi, fun s => step_eq_exec_of_placed hi (placed_withFetchWord i s)⟩

/-! ### Bytes at `pc` that are no instruction -/

/-- The fault of bytes that are no instruction, its record and nothing else (R83, R176). -/
theorem step_decodeError {e : DecodeError} (hs : s.status = .running) (hd : decode s.fetch = .error e) :
    step s = .next (faultedAs s (decodeFault e) (opcodeAt s)) :=
  step_error hs hd

theorem opcodeAt_of_lt (h : s.pc < 256) : opcodeAt s = some (s.M.read s.pc) := if_pos h

theorem opcodeAt_of_le (h : 256 ≤ s.pc) : opcodeAt s = none := if_neg (Nat.not_lt.2 h)

/-- No byte is fetched at `pc` 256 (R83). -/
theorem step_pastMemory (hs : s.status = .running) (hpc : 256 ≤ s.pc) :
    step s = .next (faultedAs s .operandOutOfRange none) := by
  have hd : decode s.fetch = .error .noOpcode := by rw [State.fetch_past (Nat.not_lt.2 hpc), decode]
  rw [step_decodeError hs hd, opcodeAt_of_le hpc, decodeFault]

/-- The fetch of an instruction's opcode: that byte, and its operand bytes as far as memory goes. -/
theorem State.fetch_opcode (hpc : s.pc < 256) (hop : s.M.read s.pc = i.opcode) :
    ∃ operands, s.fetch = i.opcode :: operands ∧ operands.length + 1 = min i.width (256 - s.pc) := by
  have hfetch : s.fetch = s.M.window s.pc i.width := by
    rw [width_eq_shape_width]
    exact State.fetch_known hpc (by rw [hop, lookupOp_opcode])
  have hlen : s.fetch.length = min i.width (256 - s.pc) := by rw [hfetch, Memory.length_window]
  have hfirst := Memory.getElem_window s.M s.pc i.width 0
  rw [← hfetch] at hfirst
  have hpos := (width_pos i).1
  cases hf : s.fetch with
  | nil =>
    rw [hf, List.length_nil] at hlen
    omega
  | cons op operands =>
    simp only [hf, List.length_cons, List.getElem_cons_zero, Nat.add_zero, hop] at hfirst hlen
    exact ⟨operands, by rw [hfirst (Nat.succ_pos _)], hlen⟩

/-- The bytes of a known opcode go on past address 255 (R83). -/
theorem step_truncated (hs : s.status = .running) (hpc : s.pc < 256) (hop : s.M.read s.pc = i.opcode)
    (hlong : 256 < s.pc + i.width) : step s = .next (faultedAs s .operandOutOfRange (some (s.M.read s.pc))) := by
  obtain ⟨operands, hfetch, hlen⟩ := State.fetch_opcode hpc hop
  have hd : decode s.fetch = .error (.truncated i.opcode) := by
    rw [hfetch, decode_opcode, decodeOperands_short i operands (by omega)]
  rw [step_decodeError hs hd, opcodeAt_of_lt hpc, decodeFault]

/-- A register byte above 7 in an instruction that is all inside memory (R74, R83). -/
theorem step_badRegister (hi : ¬i.WellFormed) (h : Placed i s) :
    step s = .next (faultedAs s .operandOutOfRange (some (s.M.read s.pc))) := by
  obtain ⟨hs, hfit, hbytes⟩ := h
  have hpc : s.pc < 256 := (Nat.lt_add_of_pos_right (width_pos i).1).trans_le hfit
  obtain ⟨b, hbad⟩ := decodeOperands_illFormed i hi []
  have hd : decode s.fetch = .error (.badRegister i.opcode b) := by
    rw [State.fetch_eq_encode hfit hbytes, encode_cons, decode_opcode, ← hbad, List.append_nil]
  rw [step_decodeError hs hd, opcodeAt_of_lt hpc, decodeFault]

theorem commonFaults (i : Instr) : CommonFaults i := by
  refine ⟨fun s hs hpc hop hlong => ?_, fun hi s hp => step_badRegister hi hp⟩
  rw [encode_cons, List.head?_cons] at hop
  exact step_truncated hs hpc (Option.some.inj hop) hlong

/-- Settles O10: the decoder's errors in its own order, each with the fault it raises. -/
theorem fetchFaultsInOrder : Obligations.FetchFaultsInOrder :=
  ⟨fun _ => step_pastMemory, fun _ => step_unknownOpcode, commonFaults⟩

end Machine
end Sys2Proof
end

section
/-! Data movement: `LDI`, `PRN`, `HLT` (40_data_movement.md). -/

namespace Sys2Proof.Machine

/-- Settles O28: with a register byte `LDI` completes, and its completion is the stated next state. -/
theorem loadImmediate : Obligations.LoadImmediate := fun _ _ =>
  ⟨rfl, commonFaults _, fun ha _ => (Completes.ldi ha).exec_eq⟩

/-- Settles O29: with a register byte `PRN` completes, and its completion is the stated next state. -/
theorem printRegister : Obligations.PrintRegister := fun _ =>
  ⟨rfl, commonFaults _, fun ha _ => (Completes.prn ha).exec_eq⟩

/-- Settles O30: `HLT` always completes, and its one byte is fetched at every address. -/
theorem haltStops : Obligations.HaltStops :=
  ⟨rfl, fun _ => Completes.hlt.exec_eq, fun _ => step_hlt⟩

end Sys2Proof.Machine
end

section
/-! The stack: `PUSH`, `POP` and their round trip (41_stack.md). -/

namespace Sys2Proof.Machine

variable {s : State} {a : RegByte}

/-! ### Writes of the register file, one after the other -/

theorem State.setReg_setReg_self (s : State) (r : Reg) (v w : Byte) :
    (s.setReg r v).setReg r w = s.setReg r w := by
  simp only [State.setReg, Vector.set_set]

theorem State.setSp_setSp (s : State) (v w : Byte) : (s.setSp v).setSp w = s.setSp w :=
  s.setReg_setReg_self ..

theorem State.setReg_comm (s : State) {r q : Reg} (v w : Byte) (h : r ≠ q) :
    (s.setReg r v).setReg q w = (s.setReg q w).setReg r v := by
  simp only [State.setReg, Vector.set_comm _ _ (Fin.val_ne_of_ne h)]

theorem State.setReg_reg_eq_self (s : State) (r : Reg) : s.setReg r (s.reg r) = s := by
  simp only [State.setReg, State.reg, Vector.get_eq_getElem, Vector.set_getElem_self]

/-- `SP` comes back to its first value, whatever another register took in between. -/
theorem State.setSp_setReg_setSp_sp (s : State) {r : Reg} (hr : r ≠ Config.spReg) (u v : Byte) :
    ((s.setSp u).setReg r v).setSp s.sp = s.setReg r v := by
  rw [State.setSp, State.setSp, State.setReg_comm _ v s.sp hr, State.setReg_setReg_self, State.sp,
    State.setReg_reg_eq_self]

/-! ### `PUSH` -/

/-- Settles O31: the push stores what the register reads after `SP` went down. -/
theorem pushRegister : Obligations.PushRegister := fun _ =>
  ⟨rfl, commonFaults _, fun ha _ => ⟨fun h => (Raises.push ha h).exec_eq, fun h =>
    ⟨_, (Completes.push ha h).exec_eq, (Memory.read_write_self ..).trans (State.setSp_reg_eq ..),
      fun _ hne => Memory.read_write_ne _ _ hne, rfl⟩⟩⟩

/-! ### `POP` -/

theorem eq_seven_of_toNat (h : a.toNat = 7) : a = 7#8 := BitVec.eq_of_toNat_eq h

/-- A pop into a register other than `SP`: `SP` goes up by one from where it was (R114). -/
theorem exec_pop_of_ne_sp (ha : a.toNat < 8) (h7 : a.toNat ≠ 7) (hsp : ¬(s.sp = Config.spInit ∨ s.sp = 0xFF#8)) :
    exec (.pop a) s =
      .next (((s.setReg ⟨a.toNat, ha⟩ (s.M.read s.sp.toNat)).setSp (s.sp + 1#8)).advance 2) := by
  have hkept : (s.setReg ⟨a.toNat, ha⟩ (s.M.read s.sp.toNat)).sp = s.sp :=
    s.setReg_reg_ne _ fun h => h7 (Fin.ext_iff.1 h).symm
  have htop : s.sp.toNat ≠ 255 := fun h => hsp (.inr (BitVec.eq_of_toNat_eq h))
  have hexec := (Completes.pop ha hsp (by rwa [hkept])).exec_eq
  rwa [hkept] at hexec

/-- `POP R7` of a byte other than 0xFF: `SP` goes up by one from the popped byte (R114, D19). -/
theorem exec_pop_sp (hsp : ¬(s.sp = Config.spInit ∨ s.sp = 0xFF#8)) (hv : s.M.read s.sp.toNat ≠ 0xFF#8) :
    exec (.pop 7#8) s = .next ((s.setSp (s.M.read s.sp.toNat + 1#8)).advance 2) := by
  have hpopped : (s.setReg 7 (s.M.read s.sp.toNat)).sp = s.M.read s.sp.toNat := s.setSp_sp _
  have htop : (s.setReg 7 (s.M.read s.sp.toNat)).sp.toNat ≠ 255 := by
    rw [hpopped]
    exact fun h => hv (BitVec.eq_of_toNat_eq h)
  have hexec := (Completes.pop (a := 7#8) (by decide) hsp htop).exec_eq
  have hover := s.setSp_setSp (s.M.read s.sp.toNat) (s.M.read s.sp.toNat + 1#8)
  rw [hexec, ← hover]
  exact congrArg (fun v => Host.Outcome.next (((s.setReg 7 _).setSp (v + 1#8)).advance 2)) hpopped

/-- `POP R7` of 0xFF would take `SP` past memory (R114, D18). -/
theorem exec_pop_sp_top (hv : s.M.read s.sp.toNat = 0xFF#8) :
    exec (.pop 7#8) s = .next (s.raise .stackUnderflow) := by
  have hpopped : (s.setReg 7 (s.M.read s.sp.toNat)).sp = 0xFF#8 := (s.setSp_sp _).trans hv
  exact (Raises.pop (a := 7#8) (by decide) (.inr (congrArg BitVec.toNat hpopped))).exec_eq

/-- Settles O32: the two values of `SP` that admit no pop, then the pop into another register, then `POP R7`. -/
theorem popRegister : Obligations.PopRegister := by
  refine fun a => ⟨rfl, commonFaults _, fun ha s => ⟨fun h => (Raises.pop ha (.inl h)).exec_eq,
    fun hinit hmax h7 => exec_pop_of_ne_sp ha h7 (not_or.2 ⟨hinit, hmax⟩), fun hinit hmax h7 hv => ?_,
    fun _ _ h7 hv => ?_⟩⟩
  · obtain rfl := eq_seven_of_toNat h7
    exact exec_pop_sp (not_or.2 ⟨hinit, hmax⟩) hv
  · obtain rfl := eq_seven_of_toNat h7
    exact exec_pop_sp_top hv

/-! ### A pop right after a push -/

section RoundTrip

variable (s) (v : Byte)

@[simp] theorem State.pushed_sp : (s.pushed v).sp = s.sp - 1#8 := s.setSp_sp _

/-- The byte that the pop after the push reads is the pushed one. -/
theorem State.read_pushed_sp : (s.pushed v).M.read (s.sp - 1#8).toNat = v := Memory.read_write_self ..

variable {s}

/-- After a push `SP` is not 0xFF, and it is that of the empty stack only when the push found 0xF5. -/
theorem sp_sub_one_admits_pop (h0 : s.sp ≠ 0x00#8) (hF5 : s.sp ≠ 0xF5#8) :
    ¬(s.sp - 1#8 = Config.spInit ∨ s.sp - 1#8 = 0xFF#8) := by
  bv_omega

/-- The push found `SP` at 0xF5, so the pop finds the `SP` of the empty stack (R115, D18). -/
theorem exec_pop_pushed_empty (ha : a.toNat < 8) (hF5 : s.sp = 0xF5#8) :
    exec (.pop a) ((s.pushed v).advance 2) = .next (((s.pushed v).advance 2).raise .stackUnderflow) := by
  have hsp : (s.pushed v).sp = Config.spInit := by rw [State.pushed_sp, hF5]; rfl
  exact Raises.exec_eq (.pop ha (.inl (.inl hsp)))

/-- The byte goes to the register, and `SP` comes back (R115). -/
theorem exec_pop_pushed (ha : a.toNat < 8) (h7 : a.toNat ≠ 7) (h0 : s.sp ≠ 0x00#8) (hF5 : s.sp ≠ 0xF5#8) :
    exec (.pop a) ((s.pushed v).advance 2) =
      .next ({ s with M := (s.pushed v).M, pc := s.pc + 4 }.setReg ⟨a.toNat, ha⟩ v) := by
  have hr : (⟨a.toNat, ha⟩ : Reg) ≠ Config.spReg := fun h => h7 (Fin.ext_iff.1 h)
  have hback := State.setSp_setReg_setSp_sp { s with M := (s.pushed v).M, pc := s.pc + 4 } hr (s.sp - 1#8) v
  have hsp : ((s.pushed v).advance 2).sp = s.sp - 1#8 := s.pushed_sp v
  rw [exec_pop_of_ne_sp ha h7 (hsp.symm ▸ sp_sub_one_admits_pop h0 hF5), hsp, State.advance_M, State.read_pushed_sp,
    BitVec.sub_add_cancel, ← hback]
  rfl

/-- Popped into `SP`, the byte plus one stays there (R115, D19). -/
theorem exec_pop_sp_pushed (h0 : s.sp ≠ 0x00#8) (hF5 : s.sp ≠ 0xF5#8) (hv : v ≠ 0xFF#8) :
    exec (.pop 7#8) ((s.pushed v).advance 2) =
      .next ({ s with M := (s.pushed v).M, pc := s.pc + 4 }.setSp (v + 1#8)) := by
  have hover := State.setSp_setSp { s with M := (s.pushed v).M, pc := s.pc + 4 } (s.sp - 1#8) (v + 1#8)
  have hsp : ((s.pushed v).advance 2).sp = s.sp - 1#8 := s.pushed_sp v
  have hread : ((s.pushed v).advance 2).M.read ((s.pushed v).advance 2).sp.toNat = v := hsp ▸ s.read_pushed_sp v
  rw [exec_pop_sp (hsp.symm ▸ sp_sub_one_admits_pop h0 hF5) (hread.symm ▸ hv), hread, ← hover]
  rfl

/-- Popped into `SP`, 0xFF would take it past memory (R115, D18). -/
theorem exec_pop_sp_pushed_top (hv : v = 0xFF#8) :
    exec (.pop 7#8) ((s.pushed v).advance 2) = .next (((s.pushed v).advance 2).raise .stackUnderflow) := by
  refine exec_pop_sp_top ?_
  rw [State.advance_sp, State.advance_M, State.pushed_sp, State.read_pushed_sp, hv]

end RoundTrip

/-- Settles O39: the pushed byte is the register's, or `SP - 1` for `R7`, and the pop finds that byte. -/
theorem pushThenPop : Obligations.PushThenPop := by
  intro a b ha hb s
  refine ⟨fun h => (Raises.push ha h).exec_eq, fun h0 => ⟨_, (Completes.push ha h0).exec_eq, rfl, ?_⟩⟩
  rw [State.setSp_reg_eq]
  refine ⟨exec_pop_pushed_empty _ hb, fun hF5 ha7 hb7 => ?_, fun hF5 ha7 hb7 => ?_, fun hF5 ha7 hb7 hv => ?_,
    fun _ ha7 hb7 hv => ?_, fun hF5 ha7 hb7 => ?_⟩
  · rw [if_neg ha7]
    exact ⟨exec_pop_pushed _ hb hb7 h0 hF5, Memory.read_write_self ..⟩
  · rw [if_pos ha7]
    exact exec_pop_pushed _ hb hb7 h0 hF5
  · obtain rfl := eq_seven_of_toNat hb7
    rw [if_neg ha7]
    exact exec_pop_sp_pushed _ h0 hF5 hv
  · obtain rfl := eq_seven_of_toNat hb7
    rw [if_neg ha7]
    exact exec_pop_sp_pushed_top _ hv
  · obtain rfl := eq_seven_of_toNat hb7
    have htop : s.sp - 1#8 ≠ 0xFF#8 := (not_or.1 (sp_sub_one_admits_pop h0 hF5)).2
    rw [if_pos ha7, exec_pop_sp_pushed _ h0 hF5 htop, BitVec.sub_add_cancel]
    exact congrArg _ (State.setReg_reg_eq_self _ _)

end Sys2Proof.Machine
end

section
/-! Control transfer: `CALL`, `RET`, the jumps, and the subroutine's round trip (42_control_transfer.md). -/

namespace Sys2Proof.Machine

open Sys2Proof.Claims

variable {s : State}

/-! ### The jumps -/

/-- A conditional jump changes `pc` alone, taken or not (R84, R124, R125). -/
theorem State.jump_or_advance_eq {taken : Bool} {p : Prop} [Decidable p] (h : taken = true ↔ p)
    (s : State) (v : Byte) :
    (if taken then s.jump v else s.advance 2) = { s with pc := if p then v.toNat else s.pc + 2 } := by
  by_cases hp : p
  · rw [if_pos (h.2 hp), if_pos hp, State.jump]
  · rw [if_neg (mt h.1 hp), if_neg hp, State.advance]

/-- Settles O35: with a register byte each jump completes; `JEQ` is taken by `E`, `JNE` by its complement. -/
theorem jumpsGoToTheRegister : Obligations.JumpsGoToTheRegister := by
  refine fun a => ⟨rfl, rfl, rfl, commonFaults _, commonFaults _, commonFaults _, fun ha s =>
    ⟨(Completes.jmp ha).exec_eq, (Completes.jeq ha).exec_eq.trans (congrArg _ ?_),
      (Completes.jne ha).exec_eq.trans (congrArg _ ?_)⟩⟩
  · exact State.jump_or_advance_eq Iff.rfl s _
  · exact State.jump_or_advance_eq (Bool.not_eq_true' _).to_iff s _

/-! ### `CALL` -/

/-- The target of a `CALL`, read after `SP` went down (R121, D19). -/
theorem State.setSp_reg_toNat {a : RegByte} (ha : a.toNat < 8) (s : State) (v : Byte) :
    ((s.setSp v).reg ⟨a.toNat, ha⟩).toNat = if a.toNat = 7 then v.toNat else s.x[a.toNat].toNat := by
  rw [State.setSp_reg_eq, apply_ite BitVec.toNat]

/-- A return address of at most 255 is a byte (R121, D20). -/
theorem returnAddress_toNat (h : s.pc + 2 ≤ 255) : (BitVec.ofNat 8 (s.pc + 2)).toNat = s.pc + 2 := by
  rw [BitVec.toNat_ofNat, Nat.mod_eq_of_lt (Nat.lt_succ_of_le h)]

/-- Settles O33: the return address is checked before `SP`; then it is pushed, and the target read. -/
theorem callSubroutine : Obligations.CallSubroutine := by
  refine fun a => ⟨rfl, commonFaults _, fun ha s => ⟨fun hpc => (Raises.callAddress (Nat.not_le.2 hpc)).exec_eq,
    fun hpc hsp => (Raises.callStack ha hpc hsp).exec_eq, fun hpc hsp => ⟨_, (Completes.call ha hpc hsp).exec_eq,
      ?_, fun _ hne => Memory.read_write_ne _ _ hne, ?_⟩⟩⟩
  · rw [State.jump_M, State.read_pushed_sp, returnAddress_toNat hpc]
  · rw [← State.setSp_reg_toNat ha]
    rfl

/-! ### `RET` -/

/-- Settles O34: the two values of `SP` that admit no pop, then the pop into `pc`. -/
theorem returnFromSubroutine : Obligations.ReturnFromSubroutine :=
  ⟨rfl, fun _ => ⟨fun h => (Raises.ret h).exec_eq,
    fun hinit hmax => (Completes.ret (not_or.2 ⟨hinit, hmax⟩)).exec_eq⟩⟩

/-! ### A return right after a call -/

/-- A `RET` that finds a pushed byte on top goes to it and brings `SP` back, wherever `pc` went in between (R127). -/
theorem exec_ret_pushed (h0 : s.sp ≠ 0x00#8) (hF5 : s.sp ≠ 0xF5#8) (v target : Byte) :
    exec .ret ((s.pushed v).jump target) = .next { s with M := (s.pushed v).M, pc := v.toNat } := by
  have hsp : ((s.pushed v).jump target).sp = s.sp - 1#8 := s.pushed_sp v
  have hback : (s.setSp (s.sp - 1#8)).setSp s.sp = s :=
    (s.setSp_setSp _ _).trans (s.setReg_reg_eq_self Config.spReg)
  rw [(Completes.ret (hsp.symm ▸ sp_sub_one_admits_pop h0 hF5)).exec_eq, hsp, State.jump_M, State.read_pushed_sp,
    BitVec.sub_add_cancel]
  exact congrArg (fun u : State => Host.Outcome.next { u with M := (s.pushed v).M, pc := v.toNat }) hback

/-- Settles O40: the byte that the `RET` pops is the return address, which fits in it. -/
theorem callThenReturn : Obligations.CallThenReturn := by
  intro a s ha hpc h0 hF5
  have hret : s.pc + 2 ≤ 255 := Nat.add_le_add_right hpc 2
  refine ⟨_, (Completes.call ha hret h0).exec_eq, ?_⟩
  rw [exec_ret_pushed h0 hF5, returnAddress_toNat hret]
  rfl

end Sys2Proof.Machine
end

section
/-! The ALU: the eight instructions of its contract, and `CMP` (43_alu.md). -/

namespace Sys2Proof.Machine

open Sys2Proof.Claims

/-! ### The bitwise results and the difference as integers -/

theorem aluAnd_toNat (A B : Byte) : (aluAnd A B).toNat = (A.toNat &&& B.toNat) % 256 :=
  BitVec.toNat_and A B ▸ (Nat.mod_eq_of_lt (A &&& B).isLt).symm

theorem aluOr_toNat (A B : Byte) : (aluOr A B).toNat = (A.toNat ||| B.toNat) % 256 :=
  BitVec.toNat_or A B ▸ (Nat.mod_eq_of_lt (A ||| B).isLt).symm

theorem aluXor_toNat (A B : Byte) : (aluXor A B).toNat = (A.toNat ^^^ B.toNat) % 256 :=
  BitVec.toNat_xor A B ▸ (Nat.mod_eq_of_lt (A ^^^ B).isLt).symm

theorem aluNot_toNat (A B : Byte) : (aluNot A B).toNat = 255 - A.toNat := BitVec.toNat_not

theorem aluSub_toNat_int (A B : Byte) : ((aluSub A B).toNat : Int) = ((A.toNat : Int) - (B.toNat : Int)) % 256 := by
  rw [aluSub, BitVec.toNat_ofInt, Int.toNat_of_nonneg (Int.emod_nonneg _ (by decide))]
  rfl

/-! ### The results of the ALU contract -/

/-- The ALU contract with both register bytes in range (R140): the first register takes the result, `pc` goes on by 3,
and nothing else changes. -/
theorem IsAlu.exec_eq_next {make : RegByte → RegByte → Instr} {f : Byte → Byte → Byte} (hm : IsAlu make f)
    {a b : RegByte} (ha : a.toNat < 8) (hb : b.toNat < 8) (s : State) :
    exec (make a b) s =
      .next { s with x := s.x.set a.toNat (f s.x[a.toNat] s.x[b.toNat]) ha, pc := s.pc + 3 } :=
  (Completes.alu hm ha hb).exec_eq

/-- An ALU instruction writes what integer arithmetic says of its result function. -/
theorem IsAlu.exists_result {make : RegByte → RegByte → Instr} {f : Byte → Byte → Byte} {g : Nat → Nat → Nat}
    (hm : IsAlu make f) (hf : ∀ A B, (f A B).toNat = g A.toNat B.toNat % 256) {a b : RegByte}
    (ha : a.toNat < 8) (hb : b.toNat < 8) (s : State) :
    ∃ v : Byte, v.toNat = g s.x[a.toNat].toNat s.x[b.toNat].toNat % 256 ∧
      exec (make a b) s = .next { s with x := s.x.set a.toNat v ha, pc := s.pc + 3 } :=
  ⟨_, hf _ _, hm.exec_eq_next ha hb s⟩

/-- Settles O36: each of the five follows the ALU contract, with its result modulo 256. -/
theorem aluResultsModulo256 : Obligations.AluResultsModulo256 := by
  intro p hp a b
  simp only [List.mem_cons, List.not_mem_nil, or_false] at hp
  obtain rfl | rfl | rfl | rfl | rfl := hp
  · exact ⟨rfl, commonFaults _, IsAlu.add.exists_result aluAdd_toNat⟩
  · exact ⟨rfl, commonFaults _, IsAlu.mul.exists_result aluMul_toNat⟩
  · exact ⟨rfl, commonFaults _, IsAlu.and.exists_result aluAnd_toNat⟩
  · exact ⟨rfl, commonFaults _, IsAlu.or.exists_result aluOr_toNat⟩
  · exact ⟨rfl, commonFaults _, IsAlu.xor.exists_result aluXor_toNat⟩

/-- Settles O37: each of the three follows the ALU contract, with its result in integer arithmetic. -/
theorem subNotShlResults : Obligations.SubNotShlResults := fun _ b =>
  ⟨rfl, rfl, rfl, commonFaults _, commonFaults _, commonFaults _, fun ha hb s =>
    ⟨_, _, _, aluSub_toNat_int _ _, aluNot_toNat _ s.x[b.toNat], aluShl_toNat _ _, aluShl_eq_zero,
      IsAlu.sub.exec_eq_next ha hb s, IsAlu.not.exec_eq_next ha hb s, IsAlu.shl.exec_eq_next ha hb s⟩⟩

/-! ### `CMP` -/

/-- One of the three orders holds, and `CMP` sets its flag (R32, R144). -/
theorem compareFlags_exactlyOne (A B : Byte) : (compareFlags A B).exactlyOne := by
  refine ⟨compareFlags_atMostOne A B, ?_⟩
  rcases compareFlags_cases A B with ⟨-, h⟩ | ⟨-, h⟩ | ⟨-, h⟩ <;> simp [h]

/-- Settles O38: with two register bytes `CMP` completes, and each of its flags is one of the three orders. -/
theorem compareSetsExactlyOneFlag : Obligations.CompareSetsExactlyOneFlag := fun a b =>
  ⟨rfl, commonFaults _, fun ha hb s =>
    ⟨compareFlags s.x[a.toNat] s.x[b.toNat], by rw [compareFlags_E, decide_eq_true_iff],
      by rw [compareFlags_G, decide_eq_true_iff], by rw [compareFlags_L, decide_eq_true_iff],
      compareFlags_exactlyOne _ _, (Completes.cmp ha hb).exec_eq⟩⟩

end Sys2Proof.Machine
end

section
/-! What a step of a running core can do, told from the bytes at `pc`: the faults it can raise, or the placed
instruction that completes. The statements of 60_exceptions.md about faults are case splits over these two. -/

namespace Sys2Proof

/-- Operand bytes of the right number after an opcode of the map are those of some instruction, well formed or not. -/
theorem exists_encode_eq (j : Instr) {operands : List Byte} (h : operands.length + 1 = j.width) :
    ∃ i, encode i = j.opcode :: operands := by
  rw [width_eq_shape_width] at h
  cases hj : j.shape with
  | n make =>
    obtain rfl := List.length_eq_zero_iff.1 (Nat.succ.inj (hj ▸ h))
    exact ⟨make, by cases j <;> cases hj <;> rfl⟩
  | r make =>
    obtain ⟨a, rfl⟩ := List.length_eq_one_iff.1 (Nat.succ.inj (hj ▸ h))
    exact ⟨make a, by cases j <;> cases hj <;> rfl⟩
  | ri make =>
    obtain ⟨a, b, rfl⟩ := List.length_eq_two.1 (Nat.succ.inj (hj ▸ h))
    exact ⟨make a b, by cases j <;> cases hj; rfl⟩
  | rr make =>
    obtain ⟨a, b, rfl⟩ := List.length_eq_two.1 (Nat.succ.inj (hj ▸ h))
    exact ⟨make a b, by cases j <;> cases hj <;> rfl⟩

namespace Machine

open Sys2Proof.Claims

variable {s t : State} {i : Instr} {k : FaultKind}

/-- The opcode of a placed instruction stands at `pc`, inside memory. -/
theorem read_pc_of_placed (h : Placed i s) : s.pc < 256 ∧ s.M.read s.pc = i.opcode := by
  obtain ⟨-, hfit, hbytes⟩ := h
  have hpos : 0 < (encode i).length := (width_pos i).1
  exact ⟨by omega, (hbytes 0 hpos).trans (List.getElem_of_eq (encode_cons i) hpos)⟩

theorem Memory.window_succ {a : Nat} (m : Memory) (h : a < 256) (n : Nat) :
    m.window a (n + 1) = m.read a :: m.window (a + 1) n := if_pos h

/-- A known opcode whose operand bytes are all inside memory begins a placed instruction. -/
theorem exists_placed (hs : s.status = .running) {j : Instr} (hop : s.M.read s.pc = j.opcode)
    (hfit : s.pc + j.width ≤ 256) : ∃ i, Placed i s := by
  obtain ⟨n, hn⟩ := Nat.exists_eq_add_of_le' (width_pos j).1
  have hwindow : s.M.window s.pc j.width = j.opcode :: s.M.window (s.pc + 1) n := by
    rw [hn, Memory.window_succ _ (by omega), hop]
  obtain ⟨i, hi⟩ := exists_encode_eq j (operands := s.M.window (s.pc + 1) n) (by rw [Memory.length_window]; omega)
  rw [← hwindow] at hi
  refine ⟨i, hs, by rw [hi, Memory.length_window]; omega, fun k hk => ?_⟩
  rw [List.getElem_of_eq hi hk, Memory.getElem_window]

/-- The bytes at `pc` of a running core: none, an unknown opcode, an instruction that passes the end of memory, or a
placed one. -/
theorem bytes_at_pc_cases (hs : s.status = .running) :
    256 ≤ s.pc ∨ (s.pc < 256 ∧ lookupOp (s.M.read s.pc) = none) ∨
      (s.pc < 256 ∧ ∃ i : Instr, s.M.read s.pc = i.opcode ∧ 256 < s.pc + i.width) ∨ ∃ i, Placed i s := by
  by_cases hpc : s.pc < 256
  · cases hl : lookupOp (s.M.read s.pc) with
    | none => exact .inr (.inl ⟨hpc, rfl⟩)
    | some shape =>
      obtain ⟨j, hop, -⟩ := lookupOp_cases hl
      by_cases hfit : s.pc + j.width ≤ 256
      · exact .inr (.inr (.inr (exists_placed hs hop hfit)))
      · exact .inr (.inr (.inl ⟨hpc, j, hop, Nat.not_le.1 hfit⟩))
  · exact .inl (Nat.not_lt.1 hpc)

/-- The step of a placed instruction is its `exec`, also where the decoder refuses a register byte: both raise the one
fault (log entry 31). -/
theorem step_of_placed (h : Placed i s) : step s = exec i s := by
  by_cases hi : i.WellFormed
  · exact step_eq_exec_of_placed hi h
  · rw [step_badRegister hi h, exec_illFormed hi, ← opcodeAt_of_lt (read_pc_of_placed h).1]
    rfl

/-- `StepRaises s k`: the step of a running core in `s` raises `k`, because the bytes at `pc` are no instruction or
because the instruction there raises it (R171 to R174). -/
inductive StepRaises (s : State) : FaultKind → Prop
  | pastMemory (hpc : 256 ≤ s.pc) : StepRaises s .operandOutOfRange
  | unknownOpcode (hpc : s.pc < 256) (hop : lookupOp (s.M.read s.pc) = none) : StepRaises s .invalidInstruction
  | truncated {i : Instr} (hpc : s.pc < 256) (hop : s.M.read s.pc = i.opcode) (hlong : 256 < s.pc + i.width) :
      StepRaises s .operandOutOfRange
  | placed {i : Instr} {k : FaultKind} (hp : Placed i s) (hr : Raises s i k) : StepRaises s k

theorem StepRaises.step_eq (h : StepRaises s k) (hs : s.status = .running) : step s = .next (s.raise k) := by
  cases h with
  | pastMemory hpc => rw [step_pastMemory hs hpc, ← opcodeAt_of_le hpc]; rfl
  | unknownOpcode hpc hop => rw [step_unknownOpcode hs hpc hop, ← opcodeAt_of_lt hpc]; rfl
  | truncated hpc hop hlong => rw [step_truncated hs hpc hop hlong, ← opcodeAt_of_lt hpc]; rfl
  | placed hp hr => rw [step_of_placed hp, hr.exec_eq]

/-- A step of a running core raises a fault, or completes the instruction placed at `pc`. -/
theorem step_running_cases (hs : s.status = .running) (h : step s = .next t) :
    (∃ k, StepRaises s k ∧ t = s.raise k) ∨ ∃ i, Placed i s ∧ Completes s i t := by
  have raised {k : FaultKind} (hk : StepRaises s k) : ∃ k, StepRaises s k ∧ t = s.raise k :=
    ⟨k, hk, Host.Outcome.next.inj (h.symm.trans (hk.step_eq hs))⟩
  obtain hpc | ⟨hpc, hop⟩ | ⟨hpc, j, hop, hlong⟩ | ⟨i, hp⟩ := bytes_at_pc_cases hs
  · exact .inl (raised (.pastMemory hpc))
  · exact .inl (raised (.unknownOpcode hpc hop))
  · exact .inl (raised (.truncated hpc hop hlong))
  · rw [step_of_placed hp, exec_eq_next] at h
    obtain hc | ⟨k, hr, rfl⟩ := h
    · exact .inr ⟨i, hp, hc⟩
    · exact .inl ⟨k, .placed hp hr, rfl⟩

/-- An instruction that completes in a running core leaves no fault. -/
theorem Completes.safe (h : Completes s i t) (hs : s.status = .running) : t.Safe := by
  intro r hr
  obtain ⟨ht, -⟩ | ⟨-, rfl⟩ := h.status_cases
  · simp [ht, hs] at hr
  · simp at hr

/-- The kinds a step of a running core raises are those of `StepRaises`. -/
theorem step_faulted_iff (hs : s.status = .running) (h : step s = .next t) :
    (∃ r, t.status = .faulted r ∧ r.kind = k) ↔ StepRaises s k := by
  constructor
  · rintro ⟨r, hr, rfl⟩
    obtain ⟨k, hk, rfl⟩ | ⟨i, -, hc⟩ := step_running_cases hs h
    · obtain rfl := Status.faulted.inj hr
      exact hk
    · exact absurd hr (hc.safe hs r)
  · intro hk
    obtain rfl := Host.Outcome.next.inj (h.symm.trans (hk.step_eq hs))
    exact ⟨_, rfl, rfl⟩

/-- Where a `POP` underflows: by `SP` alone, or for `POP R7` by the popped byte (R112, R114, D18). -/
theorem pop_underflow_iff {a : RegByte} (ha : a.toNat < 8) :
    ((s.sp = Config.spInit ∨ s.sp = 0xFF#8) ∨ (s.setReg ⟨a.toNat, ha⟩ (s.M.read s.sp.toNat)).sp.toNat = 255) ↔
      (s.sp = Config.spInit ∨ s.sp = 0xFF#8) ∨ (a = 7#8 ∧ s.M.read s.sp.toNat = 0xFF#8) := by
  have htop (b : Byte) : b.toNat = 255 ↔ b = 0xFF#8 := ⟨fun h => BitVec.eq_of_toNat_eq h, fun h => h ▸ rfl⟩
  rw [htop]
  by_cases h7 : a.toNat = 7
  · obtain rfl := eq_seven_of_toNat h7
    rw [show (s.setReg ⟨(7#8).toNat, ha⟩ (s.M.read s.sp.toNat)).sp = s.M.read s.sp.toNat from s.setSp_sp _]
    simp
  · have hne : a ≠ 7#8 := fun h => h7 (h ▸ rfl)
    rw [show (s.setReg ⟨a.toNat, ha⟩ (s.M.read s.sp.toNat)).sp = s.sp from
      s.setReg_reg_ne _ fun h => h7 (Fin.ext_iff.1 h).symm]
    simp [hne]

end Machine
end Sys2Proof
end

section
/-! Faults and the end of a run (60_exceptions.md). -/

namespace Sys2Proof.Machine

open Sys2Proof.Claims

variable {s t : State} {i : Instr} {k : FaultKind}

/-! ### When each kind is raised -/

theorem Raises.ne_invalidInstruction (h : Raises s i k) : k ≠ .invalidInstruction := by
  cases h <;> exact FaultKind.noConfusion

/-- Settles O9: an unknown opcode raises it, and no instruction does. -/
theorem invalidInstructionByOpcodeOnly : Obligations.InvalidInstructionByOpcodeOnly := by
  refine ⟨fun s hs hpc hop => ⟨_, _, step_unknownOpcode hs hpc hop, rfl, rfl, rfl, rfl⟩, fun i s t r hs h hr => ?_⟩
  obtain hc | ⟨k, hk, rfl⟩ := exec_eq_next.1 h
  · exact absurd hr (hc.safe hs r)
  · obtain rfl := Status.faulted.inj hr
    exact hk.ne_invalidInstruction

/-- Settles O11: of the faults a step can raise, those of this kind. -/
theorem operandOutOfRangeExactly : Obligations.OperandOutOfRangeExactly := by
  intro s t hs hpc h
  rw [step_faulted_iff hs h]
  constructor
  · rintro (hpast | _ | ⟨hlt, hop, hlong⟩ | ⟨hp, hr⟩)
    · exact .inl (Nat.le_antisymm hpc hpast)
    · exact .inr (.inl ⟨_, hlt, by rw [hop, encode_cons, List.head?_cons], hlong⟩)
    · cases hr with
      | illFormed hbad => exact .inr (.inr (.inl ⟨_, hp, hbad⟩))
      | @callAddress a hret =>
        have hfit : s.pc + 2 ≤ 256 := hp.2.1
        exact .inr (.inr (.inr ⟨a, hp, by omega⟩))
  · rintro (hpast | ⟨i, hlt, hop, hlong⟩ | ⟨i, hp, hbad⟩ | ⟨b, hp, hlast⟩)
    · exact .pastMemory hpast.ge
    · rw [encode_cons, List.head?_cons] at hop
      exact .truncated hlt (Option.some.inj hop) hlong
    · exact .placed hp (.illFormed hbad)
    · exact .placed hp (.callAddress (by omega))

/-- A step raises `StackOverflow` by a `PUSH`, or by a `CALL` whose return address is a byte (R173, R178). -/
theorem stepRaises_stackOverflow_iff : StepRaises s .stackOverflow ↔
    s.sp = 0x00#8 ∧ ∃ b : Byte, b.toNat < 8 ∧ (Placed (.push b) s ∨ (Placed (.call b) s ∧ s.pc ≠ 254)) := by
  constructor
  · rintro (_ | _ | _ | ⟨hp, hr⟩)
    cases hr with
    | push ha hsp => exact ⟨hsp, _, ha, .inl hp⟩
    | callStack ha hret hsp => exact ⟨hsp, _, ha, .inr ⟨hp, by omega⟩⟩
  · rintro ⟨hsp, b, hb, hp | ⟨hp, hlast⟩⟩
    · exact .placed hp (.push hb hsp)
    · have hfit : s.pc + 2 ≤ 256 := hp.2.1
      exact .placed hp (.callStack hb (by omega) hsp)

/-- A step raises `StackUnderflow` by a `RET` or a `POP` at one of the two values of `SP`, or by `POP R7` (R174). -/
theorem stepRaises_stackUnderflow_iff : StepRaises s .stackUnderflow ↔
    ((s.sp = 0xF4#8 ∨ s.sp = 0xFF#8) ∧ (Placed .ret s ∨ ∃ b : Byte, b.toNat < 8 ∧ Placed (.pop b) s)) ∨
      (Placed (.pop 7) s ∧ s.M.read s.sp.toNat = 0xFF#8) := by
  constructor
  · rintro (_ | _ | _ | ⟨hp, hr⟩)
    cases hr with
    | ret hsp => exact .inl ⟨hsp, .inl hp⟩
    | pop ha h =>
      obtain hsp | ⟨rfl, hv⟩ := (pop_underflow_iff ha).1 h
      · exact .inl ⟨hsp, .inr ⟨_, ha, hp⟩⟩
      · exact .inr ⟨hp, hv⟩
  · rintro (⟨hsp, hp | ⟨b, hb, hp⟩⟩ | ⟨hp, hv⟩)
    · exact .placed hp (.ret hsp)
    · exact .placed hp (.pop hb (.inl hsp))
    · exact .placed hp (.pop (by decide) ((pop_underflow_iff _).2 (.inr ⟨rfl, hv⟩)))

/-- Settles O12. -/
theorem stackFaultsExactly : Obligations.StackFaultsExactly := fun _ _ hs h =>
  ⟨(step_faulted_iff hs h).trans stepRaises_stackOverflow_iff,
    (step_faulted_iff hs h).trans stepRaises_stackUnderflow_iff⟩

/-- Settles O13: a faulting step is `State.raise`, which writes the status alone. -/
theorem faultsArePrecise : Obligations.FaultsArePrecise := by
  intro s t r hs h hr
  obtain ⟨k, -, rfl⟩ | ⟨i, -, hc⟩ := step_running_cases hs h
  · obtain rfl := Status.faulted.inj hr
    exact ⟨rfl, rfl, rfl⟩
  · exact absurd hr (hc.safe hs r)

/-! ### When a step does not fault -/

theorem IsAlu.mayComplete {make : RegByte → RegByte → Instr} {f : Byte → Byte → Byte} (hm : IsAlu make f)
    (a b : RegByte) : s.MayComplete (make a b) := by
  cases hm <;> trivial

/-- An instruction that completes is well formed and meets its own conditions. -/
theorem Completes.mayComplete (h : Completes s i t) : i.WellFormed ∧ s.MayComplete i := by
  cases h with
  | hlt => exact ⟨rfl, trivial⟩
  | ldi ha | prn ha | jmp ha | jeq ha | jne ha => exact ⟨by simpa using ha, trivial⟩
  | cmp ha hb => exact ⟨by simpa using ⟨ha, hb⟩, trivial⟩
  | alu hm ha hb => exact ⟨(hm.wellFormed_iff ..).2 ⟨ha, hb⟩, hm.mayComplete ..⟩
  | push ha hsp => exact ⟨by simpa using ha, hsp⟩
  | call ha hpc hsp => exact ⟨by simpa using ha, hpc, hsp⟩
  | ret hsp => exact ⟨rfl, not_or.1 hsp⟩
  | pop ha hsp htop =>
    have hfree := (not_congr (pop_underflow_iff ha)).1 (not_or.2 ⟨hsp, htop⟩)
    obtain ⟨hinit, hmax⟩ := not_or.1 hsp
    exact ⟨by simpa using ha, hinit, hmax, fun h7 hv => hfree (.inr ⟨h7, hv⟩)⟩

/-- A well-formed instruction whose own conditions hold raises no fault. -/
theorem Raises.not_mayComplete (h : Raises s i k) (hi : i.WellFormed) : ¬s.MayComplete i := by
  intro hmay
  cases h with
  | illFormed hbad => exact hbad hi
  | push ha hsp => exact hmay hsp
  | callAddress hpc => exact hpc hmay.1
  | callStack ha hpc hsp => exact hmay.2 hsp
  | ret hsp => exact hsp.elim hmay.1 hmay.2
  | pop ha h =>
    obtain ⟨hinit, hmax, hv⟩ := hmay
    obtain hsp | ⟨h7, htop⟩ := (pop_underflow_iff ha).1 h
    · exact hsp.elim hinit hmax
    · exact hv h7 htop

/-- Settles O20: a step that does not fault completes the placed instruction, and completing is meeting its
conditions. -/
theorem safeStepExactly : Obligations.SafeStepExactly := by
  intro s hs
  obtain ⟨t, ht⟩ := step_total s
  refine ⟨t, ht, fun hsafe => ?_, ?_⟩
  · obtain ⟨k, -, rfl⟩ | ⟨i, hp, hc⟩ := step_running_cases hs ht
    · exact absurd rfl (hsafe _)
    · exact ⟨i, hc.mayComplete.1, hp, hc.mayComplete.2⟩
  · rintro ⟨i, hi, hp, hmay⟩
    rw [step_of_placed hp, exec_eq_next] at ht
    obtain hc | ⟨k, hr, rfl⟩ := ht
    · exact hc.safe hs
    · exact absurd hmay (hr.not_mayComplete hi)

/-! ### The end of a run -/

/-- Settles O14, by induction on the number of steps. -/
theorem stoppedCoreStays : Obligations.StoppedCoreStays := by
  intro k s hs
  induction k with
  | zero => rfl
  | succ k ih => rw [run_succ (step_stopped hs), ih]

/-- Settles O15, by induction on the number of steps: each one answers a state. -/
theorem everyRunAnswers : Obligations.EveryRunAnswers := by
  intro k
  induction k with
  | zero => exact fun s => ⟨s, rfl⟩
  | succ k ih =>
    intro s
    obtain ⟨u, hu⟩ := step_total s
    rw [run_succ hu]
    exact ih u

/-- Settles O16: the instruction that completed is `HLT`, whose byte stands at `pc`. -/
theorem haltedEndIsAtHlt : Obligations.HaltedEndIsAtHlt := by
  intro s t hs h ht
  obtain ⟨k, -, rfl⟩ | ⟨i, hp, hc⟩ := step_running_cases hs h
  · cases ht
  · obtain ⟨hkept, -⟩ | ⟨rfl, rfl⟩ := hc.status_cases
    · rw [hkept, hs] at ht
      cases ht
    · exact ⟨(read_pc_of_placed hp).2, rfl⟩

end Sys2Proof.Machine
end

section
/-! The console's text and the host's operations (60_exceptions.md R180, R187, R190, R191). -/

namespace Sys2Proof.Machine

/-! ### The console text -/

theorem digitChar_digit : ∀ d < 10, '0' ≤ Nat.digitChar d ∧ Nat.digitChar d ≤ '9' ∧
    (Nat.digitChar d).toNat - 48 = d ∧ (Nat.digitChar d = '0' → d = 0) := by decide

/-- The three lengths of a decimal text. -/
theorem decimalDigits_cases (n : Nat) : (n < 10 ∧ decimalDigits n = [n]) ∨
    (10 ≤ n ∧ n < 100 ∧ decimalDigits n = [n / 10, n % 10]) ∨
    (100 ≤ n ∧ decimalDigits n = [n / 100, n / 10 % 10, n % 10]) := by
  unfold decimalDigits
  by_cases h : n < 10
  · simp [h]
  · by_cases h' : n < 100
    · simp [h, h', Nat.not_lt.1 h]
    · simp [h, h', Nat.not_lt.1 h']

theorem decimalDigits_lt {n : Nat} (hn : n < 1000) : ∀ d ∈ decimalDigits n, d < 10 := by
  obtain ⟨h, hd⟩ | ⟨-, h, hd⟩ | ⟨-, hd⟩ := decimalDigits_cases n <;>
    simp only [hd, List.forall_mem_cons, List.not_mem_nil, false_imp_iff, implies_true, and_true] <;> omega

/-- The digits denote the number. -/
theorem foldl_decimalDigits (n : Nat) : (decimalDigits n).foldl (fun m d => m * 10 + d) 0 = n := by
  obtain ⟨-, hd⟩ | ⟨-, -, hd⟩ | ⟨-, hd⟩ := decimalDigits_cases n <;>
    simp only [hd, List.foldl_cons, List.foldl_nil] <;> omega

/-- The first digit, which is 0 for the number 0 alone. -/
theorem exists_decimalDigits_cons (n : Nat) : ∃ d ds, decimalDigits n = d :: ds ∧ (d = 0 → ds = []) := by
  obtain ⟨-, hd⟩ | ⟨h, -, hd⟩ | ⟨h, hd⟩ := decimalDigits_cases n
  · exact ⟨_, _, hd, fun _ => rfl⟩
  · exact ⟨_, _, hd, fun _ => by omega⟩
  · exact ⟨_, _, hd, fun _ => by omega⟩

/-- Settles O45: the digits of `decimalDigits`, each as its character. -/
theorem consoleTextIsDecimal : Obligations.ConsoleTextIsDecimal := by
  intro v
  have hlt : ∀ d ∈ decimalDigits v.toNat, d < 10 := decimalDigits_lt (by omega)
  obtain ⟨first, later, hcons, hlead⟩ := exists_decimalDigits_cons v.toNat
  refine ⟨(decimalDigits v.toNat).map Nat.digitChar, rfl, by simp [hcons], fun c hc => ?_, ?_, fun hzero => ?_⟩
  · obtain ⟨d, hd, rfl⟩ := List.mem_map.1 hc
    obtain ⟨hlo, hhi, -⟩ := digitChar_digit d (hlt d hd)
    exact ⟨hlo, hhi⟩
  · have hvalue : ∀ m, ∀ d ∈ decimalDigits v.toNat, m * 10 + ((Nat.digitChar d).toNat - 48) = m * 10 + d := by
      intro m d hd
      obtain ⟨-, -, hd', -⟩ := digitChar_digit d (hlt d hd)
      rw [hd']
    rw [List.foldl_map, List.foldl_ext _ _ _ hvalue, foldl_decimalDigits]
  · rw [hcons] at hzero hlt ⊢
    obtain ⟨-, -, -, hfirst⟩ := digitChar_digit first (hlt first List.mem_cons_self)
    obtain rfl := hfirst (Option.some.inj hzero)
    rw [hlead rfl]
    rfl

/-! ### A run that has ended -/

/-- No load, start or step changes a session whose run has ended. -/
theorem Session.after_of_ended {h : Session} {e : SessionEvent} (hphase : h.phase = .started)
    (hs : h.core.status ≠ .running) (he : e ≠ .reset) : h.after e = h := by
  obtain hsame | ⟨hreset, -⟩ | ⟨image, -, hload⟩ | ⟨-, hstart⟩ | ⟨-, t, ht, hafter⟩ := h.after_cases e
  · exact hsame
  · exact absurd hreset he
  · obtain ⟨⟨hwaiting, -⟩, -⟩ := hostLoad_eq_some.1 hload
    exact absurd (hphase.symm.trans hwaiting) (by decide)
  · obtain ⟨hloaded, -⟩ := hostStart_eq_some.1 hstart
    exact absurd (hphase.symm.trans hloaded) (by decide)
  · obtain rfl := Host.Outcome.next.inj ((step_stopped hs).symm.trans ht)
    exact hafter

theorem Session.after_reset {h : Session} (hs : h.core.status ≠ .running) : h.after .reset = Session.initial := by
  rw [Session.after, hostReset_eq_some.2 ⟨hs, rfl⟩, Option.getD_some]

/-- Settles O46, by induction on the events: each one leaves the session it finds. -/
theorem endedRunWaitsForReset : Obligations.EndedRunWaitsForReset := by
  intro h events hphase hs hreset
  refine ⟨?_, Session.after_reset hs⟩
  induction events with
  | nil => rfl
  | cons e events ih =>
    obtain ⟨hne, hrest⟩ := not_or.1 (mt List.mem_cons.2 hreset)
    rw [Session.afterAll, List.foldl_cons, Session.after_of_ended hphase hs (Ne.symm hne)]
    exact ih hrest

/-! ### The order of the host's operations -/

/-- Memory holds the image from address 0 on, and 0 elsewhere (R203). -/
def HoldsImage (m : Memory) (image : List Byte) : Prop :=
  (∀ k (hk : k < image.length), m.read k = image[k]) ∧ ∀ k, image.length ≤ k → m.read k = 0x00#8

theorem holdsImage_writeBytes (image : List Byte) : HoldsImage (Memory.writeBytes [] 0 image) image := by
  refine ⟨fun k hk => ?_, fun k hk => ?_⟩
  · simp [Memory.read_writeBytes, hk]
  · simp [Memory.read_writeBytes, Nat.not_lt.2 hk, Memory.read]

/-- What every event keeps: the core's invariant, and in each phase before the start the state that reset and load
leave (R190, R203, R204). -/
structure Session.InOrder (h : Session) : Prop where
  inv : h.core.Inv
  asReset : h.phase = .afterReset → h.core = State.reset
  asLoaded : h.phase = .loaded → h.core = { State.reset with M := h.core.M } ∧
    ∃ image : List Byte, 1 ≤ image.length ∧ image.length ≤ 256 ∧ HoldsImage h.core.M image

/-- Before the start the core is halted. -/
theorem Session.InOrder.started_of_running {h : Session} (hI : h.InOrder) (hs : h.core.status = .running) :
    h.phase = .started := by
  cases hphase : h.phase with
  | afterReset => rw [hI.asReset hphase] at hs; cases hs
  | loaded => rw [(hI.asLoaded hphase).1] at hs; cases hs
  | started => rfl

/-- After the start nothing but the core's invariant is asked. -/
theorem Session.InOrder.of_started {h : Session} (hphase : h.phase = .started) (hI : h.core.Inv) : h.InOrder where
  inv := hI
  asReset e := absurd (hphase.symm.trans e) (by decide)
  asLoaded e := absurd (hphase.symm.trans e) (by decide)

theorem Session.inOrder_initial : Session.initial.InOrder where
  inv := resetMeetsInvariant
  asReset _ := rfl
  asLoaded e := absurd e (by decide)

/-- The reset state with another memory in canonical form keeps the invariant. -/
theorem State.inv_reset_memory {m : Memory} (hm : m.wf) : { State.reset with M := m }.Inv where
  pcInRange := resetMeetsInvariant.pcInRange
  memoryCanonical := hm
  flagsExclusive := resetMeetsInvariant.flagsExclusive
  recordAgrees := by
    intro r hr
    cases hr

theorem State.Inv.start {s : State} (h : s.Inv) : { s with status := .running }.Inv where
  pcInRange := h.pcInRange
  memoryCanonical := h.memoryCanonical
  flagsExclusive := h.flagsExclusive
  recordAgrees := by
    intro r hr
    cases hr

theorem Session.InOrder.load {h k : Session} {image : List Byte} (hI : h.InOrder)
    (hload : hostLoad image h = some k) : k.InOrder := by
  obtain ⟨⟨hphase, hpos, hmax⟩, rfl⟩ := hostLoad_eq_some.1 hload
  rw [hI.asReset hphase]
  exact {
    inv := State.inv_reset_memory (Memory.wf_writeBytes Memory.wf_nil (by simpa using hmax))
    asReset := fun e => absurd e (by simp)
    asLoaded := fun _ => ⟨rfl, image, hpos, hmax, holdsImage_writeBytes image⟩ }

/-- A step moves only a started core; before the start the core is halted and stays. -/
theorem Session.InOrder.step {h : Session} {t : State} (hI : h.InOrder) (ht : Machine.step h.core = .next t) :
    Session.InOrder { h with core := t } := by
  by_cases hs : h.core.status = .running
  · exact .of_started (hI.started_of_running hs) (stepKeepsInvariant _ _ hI.inv ht)
  · obtain rfl := Host.Outcome.next.inj ((step_stopped hs).symm.trans ht)
    exact hI

theorem Session.InOrder.after {h : Session} (hI : h.InOrder) (e : SessionEvent) : (h.after e).InOrder := by
  obtain hsame | ⟨-, -, hinitial⟩ | ⟨image, -, hload⟩ | ⟨-, hstart⟩ | ⟨-, t, ht, hafter⟩ := h.after_cases e
  · rwa [hsame]
  · rw [hinitial]
    exact Session.inOrder_initial
  · exact hI.load hload
  · rw [(hostStart_eq_some.1 hstart).2]
    exact .of_started rfl hI.inv.start
  · rw [hafter]
    exact hI.step ht

theorem Session.InOrder.afterAll {h : Session} (hI : h.InOrder) (events : List SessionEvent) :
    (h.afterAll events).InOrder := by
  induction events generalizing h with
  | nil => exact hI
  | cons e events ih => exact ih (hI.after e)

/-- Settles O47: every event keeps `Session.InOrder`, and each operation applies by its own condition. -/
theorem hostOperationsInOrder : Obligations.HostOperationsInOrder := by
  rintro events h rfl
  have hI := Session.inOrder_initial.afterAll events
  refine ⟨hI.inv, hI.asReset, hI.asLoaded, hI.started_of_running, ?_, fun image => ?_, ?_⟩
  · simp only [hostReset_eq_some, exists_and_left, exists_eq, and_true]
  · simp only [hostLoad_eq_some, exists_and_left, exists_eq, and_true]
  · simp only [hostStart_eq_some, exists_and_left, exists_eq, and_true]

end Sys2Proof.Machine
end

section
/-! Reset, and the way from reset to a running image (70_reset_and_hazards.md R200, R203, R204). -/

namespace Sys2Proof.Machine

variable {image : List Byte}

/-- An image of a legal size is loaded and started (R203, R204). -/
theorem boot_eq_some (hpos : 1 ≤ image.length) (hmax : image.length ≤ 256) :
    boot image = some { State.reset with M := Memory.writeBytes [] 0 image, status := .running } := by
  rw [boot, hostLoad_eq_some.2 ⟨⟨rfl, hpos, hmax⟩, rfl⟩, Option.bind_some, hostStart_eq_some.2 ⟨rfl, rfl⟩]
  rfl

/-- The load of any other image fails (D27). -/
theorem boot_eq_none (h : image.length = 0 ∨ 256 < image.length) : boot image = none := by
  have hload : hostLoad image Session.initial = none := by
    rw [Option.eq_none_iff_forall_ne_some]
    intro k hk
    obtain ⟨⟨-, hpos, hmax⟩, -⟩ := hostLoad_eq_some.1 hk
    omega
  rw [boot, hload]
  rfl

/-- Settles O44: load writes the image into the empty memory in canonical form, and start changes the status alone. -/
theorem bootRunsTheImage : Obligations.BootRunsTheImage := by
  refine fun image => ⟨fun hpos hmax => ?_, boot_eq_none⟩
  obtain ⟨hinside, houtside⟩ := holdsImage_writeBytes image
  have hwf : (Memory.writeBytes [] 0 image).wf := Memory.wf_writeBytes Memory.wf_nil (by simpa using hmax)
  exact ⟨_, boot_eq_some hpos hmax, hinside, houtside, rfl, (State.inv_reset_memory hwf).start⟩

/-- Settles O43: reset applies to a core that is not running, and what it leaves is `State.reset`. -/
theorem resetSetsEveryElement : Obligations.ResetSetsEveryElement := by
  refine fun h => ⟨fun hs => if_pos hs, fun hs => ?_⟩
  have hlow : ∀ k (hk : k < 7), State.reset.x[k] = 0x00#8 := by decide
  exact ⟨State.reset, hostReset_eq_some.2 ⟨hs, rfl⟩, rfl, hlow, rfl, rfl, fun _ => rfl, rfl, rfl⟩

end Sys2Proof.Machine
end
